-- ==== Sys2Proof/Word.lean ====
section
/-! DEFINITION. The word types of the engine (spec/00_scope.md R6, R7): every value is an unsigned
integer of a stated width, so `BitVec` with its wrapping addition is the type of each. -/

namespace Sys2Proof

/-- `U8` (R7): a byte of the buffer, of a byte payload, of the hex digest. -/
abbrev Byte := BitVec 8

/-- `U16` (R7): a UTF-16 code unit or a character code; one transfer of the data port (R74). -/
abbrev Half := BitVec 16

/-- `U32` (R7): a word of the hash state, of a block, of a table; a command header (R72). `+` on it is
the spec's `+32` (R8): addition modulo `2^32`, carry dropped. -/
abbrev Word := BitVec 32

/-- `U64` (R7, `TOTAL_BITS` of R6): the byte counter and the bit length. -/
abbrev Count := BitVec 64

end Sys2Proof
end

