-- ==== Sys2Proof/Config.lean ====
section
/-! DEFINITION. What stays open (spec/93_implementation_defined.md part 1): the FREE VALUES. Each is an
uninterpreted constant with no body: nothing in Lean can evaluate it or prove a value of it. It is
applied to the number of the draw, which `State.draws` counts, so that two draws share nothing.

Not here: the parameters `BUF_SLACK`, `STEPS_PER_CYCLE` and `CYCLES_PER_PUSH` of R6, which no rule reads
(assumption log 12), and the constant tables, which are not open (Machine/Tables.lean). -/

namespace Sys2Proof

/-- U1, U3: what a drawn hash state holds in word `j` (0..3) after draw `n` (R30, R146, R166; log 3, 4). -/
opaque Config.freeHash : Nat → Fin 4 → Word

/-- U1, U3: what a drawn buffer holds at offset `j` after draw `n` (R30, R146, R166; log 3, 4). -/
opaque Config.freeByte : Nat → Nat → Byte

/-- U1, U3: what a drawn cursor holds after draw `n` (R30, R146, R166; log 3, 4). -/
opaque Config.freeCursor : Nat → Fin 64

/-- U1, U3: what a drawn byte counter holds after draw `n` (R30, R146, R166; log 3, 4). -/
opaque Config.freeCount : Nat → Count

/-- U13: what working register `j` (0..3 for `a, b, c, d`) holds once a COMPRESS has ended with draw `n`
(R32; log 5). -/
opaque Config.freeWorking : Nat → Fin 4 → Word

/-- U13: what the step index holds once a COMPRESS has ended with draw `n` (R32; log 5). -/
opaque Config.freeIndex : Nat → Fin 65

end Sys2Proof
end

