-- ==== Sys2Proof/Syntax.lean ====
section
/-! DEFINITION. The instructions (one constructor per row of spec/opcode_table.json: the five commands of
R70 and the 66 micro-operations of R81) and the forms they are encoded in. -/

namespace Sys2Proof

/-- The whole opcode table. The commands carry their payload (R70); a micro-operation has no operand,
its step index being its row. -/
inductive Instr where
  /-- RESET (R90). -/
  | reset
  /-- APPEND_TEXT `units`: a list of UTF-16 code units (R124). -/
  | appendText (units : List Half)
  /-- APPEND_ASCII `chars`: a list of 16-bit character codes (R123). -/
  | appendAscii (chars : List Half)
  /-- APPEND_BYTES `bytes` (R122). -/
  | appendBytes (bytes : List Byte)
  /-- FINALIZE `raw`: `true` asks for the four words, `false` for the hex string (R140). -/
  | finalize (raw : Bool)
  /-- LOAD (R102), micro-operation `0x40`. -/
  | load
  -- STEP 0 to STEP 63 (R101), micro-operations `0x00` to `0x3F`
  | step0 | step1 | step2 | step3 | step4 | step5 | step6 | step7
  | step8 | step9 | step10 | step11 | step12 | step13 | step14 | step15
  | step16 | step17 | step18 | step19 | step20 | step21 | step22 | step23
  | step24 | step25 | step26 | step27 | step28 | step29 | step30 | step31
  | step32 | step33 | step34 | step35 | step36 | step37 | step38 | step39
  | step40 | step41 | step42 | step43 | step44 | step45 | step46 | step47
  | step48 | step49 | step50 | step51 | step52 | step53 | step54 | step55
  | step56 | step57 | step58 | step59 | step60 | step61 | step62 | step63
  /-- FEEDFORWARD (R103), micro-operation `0x41`. -/
  | feedforward
  deriving DecidableEq, Repr

/-- One transfer of the host (R72, R74): a header word, or one element on the 16-bit data port. -/
inductive Transfer where
  | header (w : Word)
  | data (e : Half)
  deriving DecidableEq, Repr

/-- What a legal header says (R72, R73): the command and, where it has a payload, `LEN`. -/
inductive Header where
  | reset
  | appendText (len : Nat)
  | appendAscii (len : Nat)
  | appendBytes (len : Nat)
  | finalize (raw : Bool)
  deriving DecidableEq, Repr

/-- Why the decoder rejects what it is given: each case is refused, none is reported to the host
(R77, R169). -/
inductive Reject where
  /-- R77: `OP` is `0x5` to `0xF`. -/
  | reservedOp (op : BitVec 4)
  /-- R77: `RSV` is not 0. -/
  | reservedBits
  /-- R77: `RAW` is 1 and `OP` is not FINALIZE. -/
  | rawOutsideFinalize
  /-- R77: `LEN` is not 0 and `OP` is RESET or FINALIZE. -/
  | lengthNotAllowed
  /-- R189, R169: a header arrives before the payload of the command before it is complete. -/
  | overlappingCommand
  /-- R72: a data transfer arrives where a command begins, so no header announces it (log 8). -/
  | strayData
  /-- R81: the micro-operation indices `0x42` to `0x7F` are unused. -/
  | unusedMicroOp (u : BitVec 7)
  deriving DecidableEq, Repr

/-- What the decoder makes of a code. -/
inductive Decoded where
  /-- A whole instruction, and the transfers that follow it. -/
  | instr (i : Instr) (rest : List Transfer)
  /-- No transfer has been made: the engine is idle (R171). -/
  | empty
  /-- A legal header whose payload has not all arrived yet. -/
  | waiting (h : Header)
  /-- No instruction. -/
  | illegal (r : Reject)
  deriving DecidableEq, Repr

/-- The two encoding spaces of the table: a command is a list of transfers (format `CMD`, R72), a
micro-operation is a 7-bit index inside the compressor (format `UOP`, R81). -/
inductive Code where
  | transfers (ts : List Transfer)
  | microOp (u : BitVec 7)
  deriving DecidableEq, Repr

/-- A row of the opcode table as R73 and R81 print it: a word `w` is of the row when
`w & mask = pattern`. -/
structure OpcodeRow where
  pattern : Word
  mask : Word
  deriving DecidableEq, Repr

end Sys2Proof
end

