-- ==== Sys2Proof/Machine/State.lean ====
section
/-! DEFINITION. The state of the engine (spec/10_state.md), as plain data: the context of R20, the hidden
registers of R32 and the sequencer of R106, and the model's own fields that carry the host's transfers in,
the responses out, and the number of free values drawn so far. -/

namespace Sys2Proof.Machine

/-- Four words in the roles A, B, C, D: the hash state `H[0..3]` (R21), the working registers
`a, b, c, d` (R32), a digest (R40). -/
structure ABCD where
  a : Word
  b : Word
  c : Word
  d : Word
  deriving DecidableEq, Repr

/-- `PHASE` (R29), a register of 2 bits whose four values are all used. -/
inductive Phase where
  /-- 0: no RESET since power-on. -/
  | uninit
  /-- 1: a context exists and accepts append commands and FINALIZE. -/
  | ready
  /-- 2: FINALIZE has run. -/
  | spent
  /-- 3: an append command ended with EncodingError. -/
  | faulted
  deriving DecidableEq, Repr

/-- The states of the compressor's sequencer (R106). The index of `C_STEP(i)` is the step index `i` of
R32, which has its home in `State.i`. -/
inductive Seq where
  /-- `C_IDLE`: no COMPRESS is running, and a command may begin. -/
  | cIdle
  /-- `C_LOAD`: LOAD runs next. -/
  | cLoad
  /-- `C_STEP(i)`: STEP `i` runs next. -/
  | cStep
  /-- `C_ADD`: FEEDFORWARD runs next. -/
  | cAdd
  deriving DecidableEq, Repr

/-- The memory of the engine is the 64-byte buffer `BUF` (R50), held as the cells that are not zero,
offsets strictly rising; an offset not listed reads as `0x00` (log 2). -/
abbrev Memory := List Host.Cell

/-- The canonical form: offsets 0 to 63 only (R24), strictly rising, and no cell that holds what an
unlisted offset reads as. -/
abbrev Memory.wf (m : Memory) : Prop :=
  m.Pairwise (fun p q => p.1 < q.1) ∧ ∀ c ∈ m, c.1 < 64 ∧ c.2 ≠ 0

/-- A response (R78): what an executed command answers. -/
inductive Response where
  /-- `OK`, no data. -/
  | ok
  /-- `DIGEST_RAW`, then the four words A, B, C, D. -/
  | digestRaw (digest : ABCD)
  /-- `DIGEST_HEX`, then 32 ASCII characters. -/
  | digestHex (chars : List Byte)
  /-- `ERROR` with its `ECODE`, no data. -/
  | error (ecode : Byte)
  deriving DecidableEq, Repr

/-- The state. `phase`, `h`, `buf`, `bufferLength` and `totalLength` are the architectural context of
R20; `w`, `i` and `seq` belong to the compressor; `port`, `out` and `draws` are the model's own. -/
structure State where
  /-- `PHASE` (R29). -/
  phase : Phase
  /-- `H[0..3]` = A, B, C, D (R21). -/
  h : ABCD
  /-- `BUF[0..63]` (R24). -/
  buf : Memory
  /-- `bufferLength[5:0]` (R26); 64, its value inside PUSHBYTE only, is the carry out (log 6). -/
  bufferLength : Fin 64
  /-- `totalLength[63:0]` (R27). -/
  totalLength : Count
  /-- The working registers `a, b, c, d` (R32). -/
  w : ABCD
  /-- The step index `i`, 0 to 63, with 64 for "done" (R32). -/
  i : Fin 65
  /-- The sequencer's state (R106). -/
  seq : Seq
  /-- MODEL'S OWN: the transfers the host has made or will make, not yet consumed, oldest first (R74; log 7). -/
  port : List Transfer
  /-- MODEL'S OWN: the responses given so far, oldest first (R78, R40; log 9). -/
  out : List Response
  /-- MODEL'S OWN: how many times unspecified registers have been drawn (Config; log 3, 4, 5). -/
  draws : Nat
  deriving DecidableEq, Repr

/-- The machine never stops with a fault: the one error of the engine, EncodingError, is an outcome that
APPEND_TEXT takes (R160, R166), and R162 says that nothing else raises anything. Safe: with no
constructor there is nothing a claim could wrongly attribute to the engine. -/
inductive Fault where
  deriving DecidableEq, Repr

/-- Why a step has no next state (R169). Each is safe: the source gives no behaviour, so the model
proves nothing of what follows. -/
inductive Refusal where
  /-- Raised by `exec`'s arm of an instruction without a meaning; no arm does. Safe. -/
  | notModelled (mnemonic : String)
  /-- Raised by an append command or FINALIZE outside phase READY (R169); `phase` is the phase it found.
  Safe. -/
  | wrongPhase (phase : Phase)
  /-- Raised by the fetch: the transfers on the port are no legal command (R77, R169). Safe. -/
  | illegal (reason : Reject)
  /-- Raised by the fetch when the sequencer stands in `C_STEP` with the index at "done", a state R106
  does not have. Safe. -/
  | noMicroOp
  deriving DecidableEq, Repr

/-- What a step or a meaning answers. -/
abbrev Outcome := Host.Outcome State Fault Refusal

/-- Power-on (R39, R185): phase UNINIT, the sequencer in `C_IDLE`; every register is unspecified and
holds zero here by DESIGN CHOICE (log 1, 2), and no transfer, response or draw has been made. The command
RESET is an instruction, not this (log 10). -/
def State.reset : State where
  phase := .uninit
  h := ⟨0, 0, 0, 0⟩
  buf := []
  bufferLength := 0
  totalLength := 0
  w := ⟨0, 0, 0, 0⟩
  i := 0
  seq := .cIdle
  port := []
  out := []
  draws := 0

end Sys2Proof.Machine
end

