-- ==== Sys2Proof/Machine/Flags.lean ====
section
/-! DEFINITION. The engine has no condition codes, carry or overflow flag (spec/10_state.md R38): the only
status is `PHASE`, and the status a command reports is its response word. Here are the register code of
`PHASE` (R29), the phase check (R165) and the response words (R78). -/

namespace Sys2Proof.Machine

/-- R29: the value of the `PHASE` register. -/
def Phase.code : Phase → BitVec 2
  | .uninit => 0
  | .ready => 1
  | .spent => 2
  | .faulted => 3

/-- R165 (2), R169: a command other than RESET runs in phase READY and is refused in any other, before
any payload element is looked at. -/
def whenReady (s : State) (meaning : State → State) : Outcome :=
  match s.phase with
  | .ready => .next (meaning s)
  | p => .refused (.wrongPhase p)

/-- R161: the code of EncodingError. -/
def encodingErrorCode : Byte := 1

/-- R78: `STATUS`, bits 1:0 of the status word. -/
def Response.status : Response → BitVec 2
  | .ok => 0
  | .digestRaw _ => 1
  | .digestHex _ => 2
  | .error _ => 3

/-- R78: `ECODE`, bits 9:2 of the status word: the error code when `STATUS` is 3, else 0. -/
def Response.ecode : Response → Byte
  | .error e => e
  | _ => 0

/-- R78: the status word, `STATUS` in bits 1:0, `ECODE` in bits 9:2, 0 above. -/
def Response.statusWord (r : Response) : Word := (0 : BitVec 22) ++ r.ecode ++ r.status

/-- R78: the words that follow the status word of a raw digest, A, B, C, D in this order. -/
def Response.dataWords : Response → List Word
  | .digestRaw q => [q.a, q.b, q.c, q.d]
  | _ => []

/-- R78: the bytes that follow the status word of a hex digest, first character first. -/
def Response.dataBytes : Response → List Byte
  | .digestHex cs => cs
  | _ => []

end Sys2Proof.Machine
end

