-- ==== Sys2Proof/Machine/Memory.lean ====
section
/-! DEFINITION. The operations over the buffer (spec/20_memory.md): the byte view, the little-endian
`MemRead` and `MemWrite` of R9, and the word view of R51. Every access of the engine is at an offset 0 to
63 (R55); a write keeps the canonical form `Memory.wf`. -/

namespace Sys2Proof.Machine

/-- `BUF[j]`, read: an offset not listed reads as `0x00` (log 2). -/
def Memory.read : Memory → Nat → Byte
  | [], _ => 0
  | (k, v) :: m, j => if k = j then v else Memory.read m j

/-- The buffer without a cell at offset `j`, which then reads as `0x00`. -/
def Memory.erase : Memory → Nat → Memory
  | [], _ => []
  | (k, v) :: m, j => if k = j then Memory.erase m j else (k, v) :: Memory.erase m j

/-- A cell put in its place by offset. -/
def Memory.insert : Memory → Nat → Byte → Memory
  | [], j, v => [(j, v)]
  | (k, x) :: m, j, v => if j < k then (j, v) :: (k, x) :: m else (k, x) :: Memory.insert m j v

/-- `BUF[j] <- v`. -/
def Memory.write (m : Memory) (j : Nat) (v : Byte) : Memory :=
  if v = 0 then m.erase j else (m.erase j).insert j v

/-- R9: `MemRead(addr, n)`, little-endian: `BUF[addr] + 2^8*BUF[addr+1] + ...`. -/
def Memory.readLE (m : Memory) (addr : Nat) : Nat → Nat
  | 0 => 0
  | n + 1 => (m.read addr).toNat + 2 ^ 8 * Memory.readLE m (addr + 1) n

/-- R9: `MemWrite(addr, n, v)`, little-endian: `BUF[addr+j] <- v[8j+7:8j]` for `j = 0..n-1`. -/
def Memory.writeLE (m : Memory) (addr : Nat) : Nat → Nat → Memory
  | 0, _ => m
  | n + 1, v => Memory.writeLE (m.write addr (BitVec.ofNat 8 v)) (addr + 1) n (v / 2 ^ 8)

/-- R51: the word view, `X[k] = MemRead(4k, 4)`. -/
def Memory.word (m : Memory) (k : Nat) : Word := BitVec.ofNat 32 (m.readLE (4 * k) 4)

/-- `for j = from..from+n-1: BUF[j] <- f j`. -/
def Memory.fill (m : Memory) (f : Nat → Byte) (start : Nat) : Nat → Memory
  | 0 => m
  | n + 1 => Memory.fill (m.write start (f start)) f (start + 1) n

/-- R140 step (2): `for j = start..63: BUF[j] <- 0x00`. -/
def Memory.zeroFrom (m : Memory) (start : Nat) : Memory := m.fill (fun _ => 0) start (64 - start)

end Sys2Proof.Machine
end

