-- ==== Sys2Proof/Machine/Operands.lean ====
section
/-! DEFINITION. Operand forms (spec/30_encoding.md R76): how a payload element becomes the bytes that are
pushed. A byte is itself; a character code keeps its low 8 bits; a UTF-16 code unit goes through the UTF-8
encoder of spec/42_append.md R125. -/

namespace Sys2Proof.Machine

/-- R76, R123: `trunc_8`, the byte an APPEND_ASCII element is pushed as. -/
def asciiByte (e : Half) : Byte := e.setWidth 8

/-- R161: the causes of EncodingError. They are not recorded by the engine. -/
inductive EncodingCause where
  /-- (a) a high surrogate that is the last unit of the payload. -/
  | highLast
  /-- (b) a high surrogate followed by a unit that is not a low surrogate. -/
  | highWithoutLow
  /-- (c) a low surrogate that is not the second unit of a pair. -/
  | loneLow
  /-- (d) a combined code point above `0x10FFFF`. -/
  | aboveMaximum
  deriving DecidableEq, Repr

/-- R125: what ENCODE returns. -/
inductive Encoded where
  /-- The bytes of one unit. -/
  | one (bs : List Byte)
  /-- The bytes of a surrogate pair: two units used. -/
  | pair (bs : List Byte)
  /-- `Error`. -/
  | error (cause : EncodingCause)
  deriving DecidableEq, Repr

/-- R125: `0xD800 <= u <= 0xDBFF`. -/
def isHigh (u : Half) : Bool := decide (0xD800 ≤ u.toNat ∧ u.toNat ≤ 0xDBFF)

/-- R125: `0xDC00 <= u <= 0xDFFF`. -/
def isLow (u : Half) : Bool := decide (0xDC00 ≤ u.toNat ∧ u.toNat ≤ 0xDFFF)

/-- R125: `0x80 | v` for the 6-bit field `v`, a continuation byte. -/
def continuation (v : BitVec 6) : Byte := 0x80 ||| v.setWidth 8

/-- R125: the two bytes of a unit below `0x800`. -/
def utf8Two (u : Half) : List Byte :=
  [0xC0 ||| (u.extractLsb' 6 5).setWidth 8, continuation (u.extractLsb' 0 6)]

/-- R125: the three bytes of a unit from `0x800` on, outside the surrogate range. -/
def utf8Three (u : Half) : List Byte :=
  [0xE0 ||| (u.extractLsb' 12 4).setWidth 8, continuation (u.extractLsb' 6 6),
   continuation (u.extractLsb' 0 6)]

/-- R125: the four bytes of a code point above `0xFFFF`. -/
def utf8Four (cp : BitVec 21) : List Byte :=
  [0xF0 ||| (cp.extractLsb' 18 3).setWidth 8, continuation (cp.extractLsb' 12 6),
   continuation (cp.extractLsb' 6 6), continuation (cp.extractLsb' 0 6)]

/-- R125: the code point of a pair, `0x10000 + (u - 0xD800) * 0x400 + (v - 0xDC00)`. -/
def pairCodePoint (u v : Half) : Nat := 0x10000 + (u.toNat - 0xD800) * 0x400 + (v.toNat - 0xDC00)

/-- R125: ENCODE at a unit `u`; `next` is the unit after it in the payload, if there is one. -/
def encodeUnit (u : Half) (next : Option Half) : Encoded :=
  if u.toNat < 0x80 then .one [u.setWidth 8]
  else if u.toNat < 0x800 then .one (utf8Two u)
  else if isHigh u then
    match next with
    | none => .error .highLast
    | some v =>
      if isLow v then
        if 0x10FFFF < pairCodePoint u v then .error .aboveMaximum
        else .pair (utf8Four (BitVec.ofNat 21 (pairCodePoint u v)))
      else .error .highWithoutLow
  else if isLow u then .error .loneLow
  else .one (utf8Three u)

end Sys2Proof.Machine
end

