-- ==== Sys2Proof/Machine/Tables.lean ====
section
/-! DEFINITION. The read-only tables of the engine (spec/10_state.md R31): `IV`, `T`, `S` and `K`, and the
four round functions with the group that uses each (spec/41_compress.md R97 to R100). They are fixed: no
command writes them. -/

namespace Sys2Proof.Machine

/-- R8: `rotl32(x, s)`, the `s` high bits re-entering as the `s` low bits. -/
def rotl32 (x : Word) (s : Nat) : Word := x <<< s ||| x >>> (32 - s)

/-- The names of the round functions in the table of R97. -/
inductive RoundFn where
  | F
  | G
  | Hf
  | I
  deriving DecidableEq, Repr

/-- R97, group 0: if `b` then `c` else `d`, bit by bit. -/
def roundF (b c d : Word) : Word := (b &&& c) ||| (~~~b &&& d)

/-- R97, group 1: if `d` then `b` else `c`, bit by bit. -/
def roundG (b c d : Word) : Word := (b &&& d) ||| (c &&& ~~~d)

/-- R97, group 2: parity. -/
def roundHf (b c d : Word) : Word := b ^^^ c ^^^ d

/-- R97, group 3. -/
def roundI (b c d : Word) : Word := c ^^^ (b ||| ~~~d)

/-- R97: the value of a round function on `b, c, d`. -/
def RoundFn.eval : RoundFn → Word → Word → Word → Word
  | .F => roundF
  | .G => roundG
  | .Hf => roundHf
  | .I => roundI

/-- R97: the function of group `g`. -/
def groupFn (g : Nat) : RoundFn :=
  match g with
  | 0 => .F
  | 1 => .G
  | 2 => .Hf
  | _ => .I

/-- R22: `IV[0..3]`, one word each. -/
def iv0 : Word := 0x67452301
def iv1 : Word := 0xEFCDAB89
def iv2 : Word := 0x98BADCFE
def iv3 : Word := 0x10325476

/-- R98: `T[0..15]`. -/
def additiveGroup0 : List Word :=
  [0xD76AA478, 0xE8C7B756, 0x242070DB, 0xC1BDCEEE,
   0xF57C0FAF, 0x4787C62A, 0xA8304613, 0xFD469501,
   0x698098D8, 0x8B44F7AF, 0xFFFF5BB1, 0x895CD7BE,
   0x6B901122, 0xFD987193, 0xA679438E, 0x49B40821]

/-- R98: `T[16..31]`. -/
def additiveGroup1 : List Word :=
  [0xF61E2562, 0xC040B340, 0x265E5A51, 0xE9B6C7AA,
   0xD62F105D, 0x02441453, 0xD8A1E681, 0xE7D3FBC8,
   0x21E1CDE6, 0xC33707D6, 0xF4D50D87, 0x455A14ED,
   0xA9E3E905, 0xFCEFA3F8, 0x676F02D9, 0x8D2A4C8A]

/-- R98: `T[32..47]`. -/
def additiveGroup2 : List Word :=
  [0xFFFA3942, 0x8771F681, 0x6D9D6122, 0xFDE5380C,
   0xA4BEEA44, 0x4BDECFA9, 0xF6BB4B60, 0xBEBFBC70,
   0x289B7EC6, 0xEAA127FA, 0xD4EF3085, 0x04881D05,
   0xD9D4D039, 0xE6DB99E5, 0x1FA27CF8, 0xC4AC5665]

/-- R98: `T[48..63]`. -/
def additiveGroup3 : List Word :=
  [0xF4292244, 0x432AFF97, 0xAB9423A7, 0xFC93A039,
   0x655B59C3, 0x8F0CCC92, 0xFFEFF47D, 0x85845DD1,
   0x6FA87E4F, 0xFE2CE6E0, 0xA3014314, 0x4E0811A1,
   0xF7537E82, 0xBD3AF235, 0x2AD7D2BB, 0xEB86D391]

/-- R98: the additive constant `T[i]`. -/
def additive (i : Nat) : Word :=
  (additiveGroup0 ++ additiveGroup1 ++ additiveGroup2 ++ additiveGroup3).getD i 0

/-- R99: the rotation amounts `S[g][0..3]` of group `g`. -/
def rotationRow (g : Nat) : List Nat :=
  match g with
  | 0 => [7, 12, 17, 22]
  | 1 => [5, 9, 14, 20]
  | 2 => [4, 11, 16, 23]
  | _ => [6, 10, 15, 21]

/-- R99: `s(i) = S[i div 16][i mod 4]`. -/
def rotation (i : Nat) : Nat := (rotationRow (i / 16)).getD (i % 4) 0

/-- R100: the word selection `K(i)`. -/
def wordIndex (i : Nat) : Nat :=
  match i / 16 with
  | 0 => i % 16
  | 1 => (5 * i + 1) % 16
  | 2 => (3 * i + 5) % 16
  | _ => (7 * i) % 16

end Sys2Proof.Machine
end

