-- ==== Sys2Proof/Machine/Ops.lean ====
section
/-! DEFINITION. The shared operations the meanings are made of: the micro-operations and COMPRESS
(spec/41_compress.md), PUSHBYTE, DRAIN and the text loop (spec/42_append.md), padding (spec/43_finalize.md),
the free values, responses, and taking EncodingError (spec/60_exceptions.md R166). -/

namespace Sys2Proof.Machine

/-! ## Free values -/

/-- R30, U1, U3: `H`, `BUF`, `bufferLength` and `totalLength` become unspecified. -/
def dropContext (s : State) : State :=
  { s with
    h := ⟨Config.freeHash s.draws 0, Config.freeHash s.draws 1, Config.freeHash s.draws 2,
      Config.freeHash s.draws 3⟩
    buf := Memory.fill [] (Config.freeByte s.draws) 0 64
    bufferLength := Config.freeCursor s.draws
    totalLength := Config.freeCount s.draws
    draws := s.draws + 1 }

/-- R32, U13: between two COMPRESS the hidden registers `a, b, c, d, i` hold any value. -/
def dropWorking (s : State) : State :=
  { s with
    w := ⟨Config.freeWorking s.draws 0, Config.freeWorking s.draws 1, Config.freeWorking s.draws 2,
      Config.freeWorking s.draws 3⟩
    i := Config.freeIndex s.draws
    draws := s.draws + 1 }

/-! ## The compressor -/

/-- R22: the initial hash state. -/
def ivHash : ABCD := ⟨iv0, iv1, iv2, iv3⟩

/-- Word by word addition modulo `2^32`. -/
def ABCD.add (p q : ABCD) : ABCD := ⟨p.a + q.a, p.b + q.b, p.c + q.c, p.d + q.d⟩

/-- R101: one step on the working registers, with function `f`, block word `x`, rotation `r` and
constant `t`; all old values are read before any is written. -/
def roundStep (f : RoundFn) (x : Word) (r : Nat) (t : Word) (q : ABCD) : ABCD :=
  ⟨q.d, q.b + rotl32 (q.a + f.eval q.b q.c q.d + x + t) r, q.b, q.c⟩

/-- R102: LOAD. -/
def opLoad (s : State) : State := { s with w := s.h }

/-- R101: STEP, with the function, word index, rotation and constant of its row of R105. -/
def opStep (f : RoundFn) (k r : Nat) (t : Word) (s : State) : State :=
  { s with w := roundStep f (s.buf.word k) r t s.w }

/-- R103: FEEDFORWARD. -/
def opFeedForward (s : State) : State := { s with h := s.h.add s.w }

/-- R101: STEP `i`, its row looked up in the tables of R97 to R100. -/
def tableStep (i : Nat) (s : State) : State :=
  opStep (groupFn (i / 16)) (wordIndex i) (rotation i) (additive i) s

/-- R104: `for i = 0..n-1: STEP i`. -/
def stepsUpTo : Nat → State → State
  | 0, s => s
  | n + 1, s => tableStep n (stepsUpTo n s)

/-- R104: COMPRESS run at once, inside a command (R5): LOAD, the 64 steps, FEEDFORWARD. The sequencer is in
`C_IDLE` before and after (R106). -/
def compress (s : State) : State := dropWorking (opFeedForward (stepsUpTo 64 (opLoad s)))

/-- R106: the sequencer leaves its state, once the action of that state is done. In `C_IDLE` it waits. -/
def advanceSeq (s : State) : State :=
  match s.seq with
  | .cIdle => s
  | .cLoad => { s with seq := .cStep, i := 0 }
  | .cStep =>
    if h : s.i.val < 63 then { s with i := ⟨s.i.val + 1, by omega⟩ }
    else { s with seq := .cAdd, i := 64 }
  | .cAdd => dropWorking { s with seq := .cIdle }

/-- R106: a COMPRESS starts. -/
def startCompress (s : State) : State := { s with seq := .cLoad }

/-! ## Fill and drain -/

/-- R121: DRAIN. -/
def drain (s : State) : State :=
  { compress s with totalLength := s.totalLength + 64, bufferLength := 0 }

/-- R120: PUSHBYTE. A cursor of 63 that is raised is the cursor 64, and the full buffer is drained. -/
def pushByte (v : Byte) (s : State) : State :=
  let filled := { s with buf := s.buf.write s.bufferLength.val v }
  if h : s.bufferLength.val + 1 < 64 then
    { filled with bufferLength := ⟨s.bufferLength.val + 1, h⟩ }
  else drain filled

/-- R122, R123, R124: the bytes of a list are pushed in order. -/
def pushBytes : List Byte → State → State
  | [], s => s
  | v :: bs, s => pushBytes bs (pushByte v s)

/-! ## Responses -/

/-- R78: the command's one response, after all its effects. -/
def respond (r : Response) (s : State) : State := { s with out := s.out ++ [r] }

/-! ## The one exception -/

/-- R166: EncodingError is taken: phase FAULTED, the response `ERROR` with its code, and the context
unspecified. Nothing is saved and control goes nowhere. -/
def takeEncodingError (s : State) : State :=
  respond (.error encodingErrorCode) { dropContext s with phase := .faulted }

/-- R167, R90: the way out of FAULTED, and of every other phase: a fresh context. `BUF` is not written. -/
def freshContext (s : State) : State :=
  { s with h := ivHash, bufferLength := 0, totalLength := 0, phase := .ready }

/-! ## Text -/

/-- R124: the loop of APPEND_TEXT: each unit or pair is encoded and its bytes pushed; at the first unit in
error the command ends with EncodingError, and no byte of that unit or of a later one is pushed. -/
def appendUnits : List Half → State → State
  | [], s => respond .ok s
  | [u], s =>
    match encodeUnit u none with
    | .one bs | .pair bs => respond .ok (pushBytes bs s)
    | .error _ => takeEncodingError s
  | u :: v :: rest, s =>
    match encodeUnit u (some v) with
    | .one bs => appendUnits (v :: rest) (pushBytes bs s)
    | .pair bs => appendUnits rest (pushBytes bs s)
    | .error _ => takeEncodingError s

/-! ## Padding and the digest -/

/-- R140 (1): the grand total `L`, in bytes. -/
def grandTotal (s : State) : Count := s.totalLength + BitVec.ofNat 64 s.bufferLength.val

/-- R142: the bit length, `(L * 8) mod 2^64`. -/
def bitLength (len : Count) : Count := len * 8

/-- R140 (2): the byte `0x80` at the cursor, then zeros through the end of the block. -/
def padBlock (s : State) : State :=
  { s with buf := (s.buf.write s.bufferLength.val 0x80).zeroFrom (s.bufferLength.val + 1) }

/-- R140 (3): where fewer than 8 bytes are left after the `0x80`, the block is compressed and an all-zero
block begun. -/
def overflowBlock (s : State) : State :=
  if 55 < s.bufferLength.val then
    let t := compress s
    { t with buf := t.buf.zeroFrom 0 }
  else s

/-- R140 (4), R52: the bit length in the last 8 bytes, the low word first, each word little-endian. -/
def writeLength (bits : Count) (s : State) : State :=
  { s with
    buf := (s.buf.writeLE 56 4 (bits.extractLsb' 0 32).toNat).writeLE 60 4
      (bits.extractLsb' 32 32).toNat }

/-- R140 (1) to (5): the state whose `H` is the digest. -/
def padAndCompress (s : State) : State :=
  compress (writeLength (bitLength (grandTotal s)) (overflowBlock (padBlock s)))

/-- R144: the ASCII code of a hexadecimal digit, lowercase. -/
def hexDigit (v : BitVec 4) : Byte :=
  if v.toNat < 10 then BitVec.ofNat 8 (0x30 + v.toNat) else BitVec.ofNat 8 (0x57 + v.toNat)

/-- R144: the two characters of a byte, the high nibble first. -/
def hexByte (v : Byte) : List Byte := [hexDigit (v.extractLsb' 4 4), hexDigit (v.extractLsb' 0 4)]

/-- R144: the eight characters of a word, its bytes from the least significant. -/
def hexWord (v : Word) : List Byte :=
  hexByte (v.extractLsb' 0 8) ++ hexByte (v.extractLsb' 8 8) ++ hexByte (v.extractLsb' 16 8) ++
    hexByte (v.extractLsb' 24 8)

/-- R144: `HEX(digest)`. -/
def hexDigest (q : ABCD) : List Byte := hexWord q.a ++ hexWord q.b ++ hexWord q.c ++ hexWord q.d

/-- R146: the context is consumed: phase SPENT, its registers unspecified. -/
def spendContext (s : State) : State := { dropContext s with phase := .spent }

/-- R143, R144: the response that carries the digest, in the form `raw` asks for. -/
def digestResponse (raw : Bool) (q : ABCD) : Response :=
  if raw then .digestRaw q else .digestHex (hexDigest q)

end Sys2Proof.Machine
end

