-- ==== Sys2Proof/Machine/Append.lean ====
section
/-! DEFINITION. The meanings of the append commands (spec/42_append.md). -/

namespace Sys2Proof.Machine

/-- APPEND_BYTES (R122). -/
def execAppendBytes (bytes : List Byte) (s : State) : Outcome :=
  whenReady s fun s => respond .ok (pushBytes bytes s)

/-- APPEND_ASCII (R123): each character code pushed as its low 8 bits. -/
def execAppendAscii (chars : List Half) (s : State) : Outcome :=
  whenReady s fun s => respond .ok (pushBytes (chars.map asciiByte) s)

/-- APPEND_TEXT (R124): takes EncodingError at the first unit in error (R126). -/
def execAppendText (units : List Half) (s : State) : Outcome :=
  whenReady s (appendUnits units)

end Sys2Proof.Machine
end

