-- ==== Sys2Proof/Machine/Compressor.lean ====
section
/-! DEFINITION. The meanings of the 66 micro-operations of the compressor (spec/41_compress.md): LOAD,
STEP 0 to STEP 63, FEEDFORWARD. Each STEP is written from its own row of the decoded table of R105
(function, word index, rotation, constant); that the rows agree with the tables COMPRESS uses (R97 to R100)
is a statement of its own. The sequencer moves on in `step`, not here (R106). -/

namespace Sys2Proof.Machine

/-- LOAD (R102). -/
def execLoad (s : State) : Outcome := .next (opLoad s)

/-! ## Group 0: STEP 0 to STEP 15 -/

def execStep0 (s : State) : Outcome := .next (opStep .F 0 7 0xD76AA478 s)
def execStep1 (s : State) : Outcome := .next (opStep .F 1 12 0xE8C7B756 s)
def execStep2 (s : State) : Outcome := .next (opStep .F 2 17 0x242070DB s)
def execStep3 (s : State) : Outcome := .next (opStep .F 3 22 0xC1BDCEEE s)
def execStep4 (s : State) : Outcome := .next (opStep .F 4 7 0xF57C0FAF s)
def execStep5 (s : State) : Outcome := .next (opStep .F 5 12 0x4787C62A s)
def execStep6 (s : State) : Outcome := .next (opStep .F 6 17 0xA8304613 s)
def execStep7 (s : State) : Outcome := .next (opStep .F 7 22 0xFD469501 s)
def execStep8 (s : State) : Outcome := .next (opStep .F 8 7 0x698098D8 s)
def execStep9 (s : State) : Outcome := .next (opStep .F 9 12 0x8B44F7AF s)
def execStep10 (s : State) : Outcome := .next (opStep .F 10 17 0xFFFF5BB1 s)
def execStep11 (s : State) : Outcome := .next (opStep .F 11 22 0x895CD7BE s)
def execStep12 (s : State) : Outcome := .next (opStep .F 12 7 0x6B901122 s)
def execStep13 (s : State) : Outcome := .next (opStep .F 13 12 0xFD987193 s)
def execStep14 (s : State) : Outcome := .next (opStep .F 14 17 0xA679438E s)
def execStep15 (s : State) : Outcome := .next (opStep .F 15 22 0x49B40821 s)

/-! ## Group 1: STEP 16 to STEP 31 -/

def execStep16 (s : State) : Outcome := .next (opStep .G 1 5 0xF61E2562 s)
def execStep17 (s : State) : Outcome := .next (opStep .G 6 9 0xC040B340 s)
def execStep18 (s : State) : Outcome := .next (opStep .G 11 14 0x265E5A51 s)
def execStep19 (s : State) : Outcome := .next (opStep .G 0 20 0xE9B6C7AA s)
def execStep20 (s : State) : Outcome := .next (opStep .G 5 5 0xD62F105D s)
def execStep21 (s : State) : Outcome := .next (opStep .G 10 9 0x02441453 s)
def execStep22 (s : State) : Outcome := .next (opStep .G 15 14 0xD8A1E681 s)
def execStep23 (s : State) : Outcome := .next (opStep .G 4 20 0xE7D3FBC8 s)
def execStep24 (s : State) : Outcome := .next (opStep .G 9 5 0x21E1CDE6 s)
def execStep25 (s : State) : Outcome := .next (opStep .G 14 9 0xC33707D6 s)
def execStep26 (s : State) : Outcome := .next (opStep .G 3 14 0xF4D50D87 s)
def execStep27 (s : State) : Outcome := .next (opStep .G 8 20 0x455A14ED s)
def execStep28 (s : State) : Outcome := .next (opStep .G 13 5 0xA9E3E905 s)
def execStep29 (s : State) : Outcome := .next (opStep .G 2 9 0xFCEFA3F8 s)
def execStep30 (s : State) : Outcome := .next (opStep .G 7 14 0x676F02D9 s)
def execStep31 (s : State) : Outcome := .next (opStep .G 12 20 0x8D2A4C8A s)

/-! ## Group 2: STEP 32 to STEP 47 -/

def execStep32 (s : State) : Outcome := .next (opStep .Hf 5 4 0xFFFA3942 s)
def execStep33 (s : State) : Outcome := .next (opStep .Hf 8 11 0x8771F681 s)
def execStep34 (s : State) : Outcome := .next (opStep .Hf 11 16 0x6D9D6122 s)
def execStep35 (s : State) : Outcome := .next (opStep .Hf 14 23 0xFDE5380C s)
def execStep36 (s : State) : Outcome := .next (opStep .Hf 1 4 0xA4BEEA44 s)
def execStep37 (s : State) : Outcome := .next (opStep .Hf 4 11 0x4BDECFA9 s)
def execStep38 (s : State) : Outcome := .next (opStep .Hf 7 16 0xF6BB4B60 s)
def execStep39 (s : State) : Outcome := .next (opStep .Hf 10 23 0xBEBFBC70 s)
def execStep40 (s : State) : Outcome := .next (opStep .Hf 13 4 0x289B7EC6 s)
def execStep41 (s : State) : Outcome := .next (opStep .Hf 0 11 0xEAA127FA s)
def execStep42 (s : State) : Outcome := .next (opStep .Hf 3 16 0xD4EF3085 s)
def execStep43 (s : State) : Outcome := .next (opStep .Hf 6 23 0x04881D05 s)
def execStep44 (s : State) : Outcome := .next (opStep .Hf 9 4 0xD9D4D039 s)
def execStep45 (s : State) : Outcome := .next (opStep .Hf 12 11 0xE6DB99E5 s)
def execStep46 (s : State) : Outcome := .next (opStep .Hf 15 16 0x1FA27CF8 s)
def execStep47 (s : State) : Outcome := .next (opStep .Hf 2 23 0xC4AC5665 s)

/-! ## Group 3: STEP 48 to STEP 63 -/

def execStep48 (s : State) : Outcome := .next (opStep .I 0 6 0xF4292244 s)
def execStep49 (s : State) : Outcome := .next (opStep .I 7 10 0x432AFF97 s)
def execStep50 (s : State) : Outcome := .next (opStep .I 14 15 0xAB9423A7 s)
def execStep51 (s : State) : Outcome := .next (opStep .I 5 21 0xFC93A039 s)
def execStep52 (s : State) : Outcome := .next (opStep .I 12 6 0x655B59C3 s)
def execStep53 (s : State) : Outcome := .next (opStep .I 3 10 0x8F0CCC92 s)
def execStep54 (s : State) : Outcome := .next (opStep .I 10 15 0xFFEFF47D s)
def execStep55 (s : State) : Outcome := .next (opStep .I 1 21 0x85845DD1 s)
def execStep56 (s : State) : Outcome := .next (opStep .I 8 6 0x6FA87E4F s)
def execStep57 (s : State) : Outcome := .next (opStep .I 15 10 0xFE2CE6E0 s)
def execStep58 (s : State) : Outcome := .next (opStep .I 6 15 0xA3014314 s)
def execStep59 (s : State) : Outcome := .next (opStep .I 13 21 0x4E0811A1 s)
def execStep60 (s : State) : Outcome := .next (opStep .I 4 6 0xF7537E82 s)
def execStep61 (s : State) : Outcome := .next (opStep .I 11 10 0xBD3AF235 s)
def execStep62 (s : State) : Outcome := .next (opStep .I 2 15 0x2AD7D2BB s)
def execStep63 (s : State) : Outcome := .next (opStep .I 9 21 0xEB86D391 s)

/-- FEEDFORWARD (R103). -/
def execFeedforward (s : State) : Outcome := .next (opFeedForward s)

end Sys2Proof.Machine
end

