-- ==== Sys2Proof/Machine/Lifecycle.lean ====
section
/-! DEFINITION. The meanings of RESET (spec/40_reset.md) and FINALIZE (spec/43_finalize.md). -/

namespace Sys2Proof.Machine

/-- RESET (R90): in any phase; it reads no state, cannot fail and is never refused. -/
def execReset (s : State) : Outcome := .next (respond .ok (freshContext s))

/-- FINALIZE (R140): pads, compresses, answers the digest; the context is consumed and its registers are
unspecified (R146). -/
def execFinalize (raw : Bool) (s : State) : Outcome :=
  whenReady s fun s =>
    let t := padAndCompress s
    respond (digestResponse raw t.h) (spendContext t)

end Sys2Proof.Machine
end

