-- ==== Sys2Proof/Machine/Dispatch.lean ====
section
/-! DEFINITION. One arm per instruction, each a direct call of its meaning. -/

namespace Sys2Proof.Machine

def exec (i : Instr) (s : State) : Host.Outcome State Fault Refusal :=
  match i with
  | .reset => Sys2Proof.Machine.execReset s
  | .appendText units => Sys2Proof.Machine.execAppendText units s
  | .appendAscii chars => Sys2Proof.Machine.execAppendAscii chars s
  | .appendBytes bytes => Sys2Proof.Machine.execAppendBytes bytes s
  | .finalize raw => Sys2Proof.Machine.execFinalize raw s
  | .load => Sys2Proof.Machine.execLoad s
  | .step0 => Sys2Proof.Machine.execStep0 s
  | .step1 => Sys2Proof.Machine.execStep1 s
  | .step2 => Sys2Proof.Machine.execStep2 s
  | .step3 => Sys2Proof.Machine.execStep3 s
  | .step4 => Sys2Proof.Machine.execStep4 s
  | .step5 => Sys2Proof.Machine.execStep5 s
  | .step6 => Sys2Proof.Machine.execStep6 s
  | .step7 => Sys2Proof.Machine.execStep7 s
  | .step8 => Sys2Proof.Machine.execStep8 s
  | .step9 => Sys2Proof.Machine.execStep9 s
  | .step10 => Sys2Proof.Machine.execStep10 s
  | .step11 => Sys2Proof.Machine.execStep11 s
  | .step12 => Sys2Proof.Machine.execStep12 s
  | .step13 => Sys2Proof.Machine.execStep13 s
  | .step14 => Sys2Proof.Machine.execStep14 s
  | .step15 => Sys2Proof.Machine.execStep15 s
  | .step16 => Sys2Proof.Machine.execStep16 s
  | .step17 => Sys2Proof.Machine.execStep17 s
  | .step18 => Sys2Proof.Machine.execStep18 s
  | .step19 => Sys2Proof.Machine.execStep19 s
  | .step20 => Sys2Proof.Machine.execStep20 s
  | .step21 => Sys2Proof.Machine.execStep21 s
  | .step22 => Sys2Proof.Machine.execStep22 s
  | .step23 => Sys2Proof.Machine.execStep23 s
  | .step24 => Sys2Proof.Machine.execStep24 s
  | .step25 => Sys2Proof.Machine.execStep25 s
  | .step26 => Sys2Proof.Machine.execStep26 s
  | .step27 => Sys2Proof.Machine.execStep27 s
  | .step28 => Sys2Proof.Machine.execStep28 s
  | .step29 => Sys2Proof.Machine.execStep29 s
  | .step30 => Sys2Proof.Machine.execStep30 s
  | .step31 => Sys2Proof.Machine.execStep31 s
  | .step32 => Sys2Proof.Machine.execStep32 s
  | .step33 => Sys2Proof.Machine.execStep33 s
  | .step34 => Sys2Proof.Machine.execStep34 s
  | .step35 => Sys2Proof.Machine.execStep35 s
  | .step36 => Sys2Proof.Machine.execStep36 s
  | .step37 => Sys2Proof.Machine.execStep37 s
  | .step38 => Sys2Proof.Machine.execStep38 s
  | .step39 => Sys2Proof.Machine.execStep39 s
  | .step40 => Sys2Proof.Machine.execStep40 s
  | .step41 => Sys2Proof.Machine.execStep41 s
  | .step42 => Sys2Proof.Machine.execStep42 s
  | .step43 => Sys2Proof.Machine.execStep43 s
  | .step44 => Sys2Proof.Machine.execStep44 s
  | .step45 => Sys2Proof.Machine.execStep45 s
  | .step46 => Sys2Proof.Machine.execStep46 s
  | .step47 => Sys2Proof.Machine.execStep47 s
  | .step48 => Sys2Proof.Machine.execStep48 s
  | .step49 => Sys2Proof.Machine.execStep49 s
  | .step50 => Sys2Proof.Machine.execStep50 s
  | .step51 => Sys2Proof.Machine.execStep51 s
  | .step52 => Sys2Proof.Machine.execStep52 s
  | .step53 => Sys2Proof.Machine.execStep53 s
  | .step54 => Sys2Proof.Machine.execStep54 s
  | .step55 => Sys2Proof.Machine.execStep55 s
  | .step56 => Sys2Proof.Machine.execStep56 s
  | .step57 => Sys2Proof.Machine.execStep57 s
  | .step58 => Sys2Proof.Machine.execStep58 s
  | .step59 => Sys2Proof.Machine.execStep59 s
  | .step60 => Sys2Proof.Machine.execStep60 s
  | .step61 => Sys2Proof.Machine.execStep61 s
  | .step62 => Sys2Proof.Machine.execStep62 s
  | .step63 => Sys2Proof.Machine.execStep63 s
  | .feedforward => Sys2Proof.Machine.execFeedforward s

end Sys2Proof.Machine
end

