-- ==== Sys2Proof/WellFormed.lean ====
section
/-! DEFINITION. Well-formed instructions: what the encoding of spec/30_encoding.md can hold. Operand
widths are in the types of `Instr`; the one check left is the payload bound of R75. -/

namespace Sys2Proof

/-- R75: `LEN` is at most `2^24 - 1`. -/
def payloadBound : Nat := 2 ^ 24

/-- R75, R77: an append command's payload fits the header's `LEN` field; RESET, FINALIZE and the
micro-operations have no payload and nothing to check. -/
def Instr.wf : Instr → Bool
  | .appendText units => decide (units.length < payloadBound)
  | .appendAscii chars => decide (chars.length < payloadBound)
  | .appendBytes bytes => decide (bytes.length < payloadBound)
  | _ => true

end Sys2Proof
end

