-- ==== Sys2Proof/Decode.lean ====
section
/-! DEFINITION. Decoding (spec/30_encoding.md): total on any list of transfers and on any
micro-operation index, rejecting by name; then the encoder, written from the same tables. -/

namespace Sys2Proof

/-! ## The header (R72, R73, R77) -/

/-- R72: `OP`, bits 3:0. -/
def headerOp (w : Word) : BitVec 4 := w.extractLsb' 0 4

/-- R72: `RAW`, bit 4. -/
def headerRaw (w : Word) : Bool := w.getLsbD 4

/-- R72: `RSV`, bits 7:5. -/
def headerRsv (w : Word) : BitVec 3 := w.extractLsb' 5 3

/-- R72: `LEN`, bits 31:8. -/
def headerLen (w : Word) : BitVec 24 := w.extractLsb' 8 24

/-- R73 with the checks of R77, which a header may fail several of: they are made in the order R77
lists them. -/
def decodeHeader (w : Word) : Except Reject Header :=
  if 5 ≤ (headerOp w).toNat then .error (.reservedOp (headerOp w))
  else if headerRsv w ≠ 0 then .error .reservedBits
  else if headerRaw w = true ∧ headerOp w ≠ 4 then .error .rawOutsideFinalize
  else if headerLen w ≠ 0 ∧ (headerOp w = 0 ∨ headerOp w = 4) then .error .lengthNotAllowed
  else if headerOp w = 0 then .ok .reset
  else if headerOp w = 1 then .ok (.appendText (headerLen w).toNat)
  else if headerOp w = 2 then .ok (.appendAscii (headerLen w).toNat)
  else if headerOp w = 3 then .ok (.appendBytes (headerLen w).toNat)
  else .ok (.finalize (headerRaw w))

/-! ## The payload (R74) -/

/-- R74: the next `n` elements of the payload, element 0 first, and what follows them. `none` where
they have not all arrived; a header in their place is refused (R189). -/
def takePayload : Nat → List Transfer → Except Reject (Option (List Half × List Transfer))
  | 0, ts => .ok (some ([], ts))
  | _ + 1, [] => .ok none
  | _ + 1, .header _ :: _ => .error .overlappingCommand
  | n + 1, .data e :: ts =>
    match takePayload n ts with
    | .ok (some (es, rest)) => .ok (some (e :: es, rest))
    | r => r

/-- R74: an APPEND_BYTES element is bits 7:0 of its transfer; bits 15:8 are ignored. -/
def byteOfTransfer (e : Half) : Byte := e.setWidth 8

/-- A payload of `n` elements, made into the instruction it belongs to. -/
def withPayload (h : Header) (n : Nat) (mk : List Half → Instr) (ts : List Transfer) : Decoded :=
  match takePayload n ts with
  | .error r => .illegal r
  | .ok none => .waiting h
  | .ok (some (es, rest)) => .instr (mk es) rest

/-- R74: the instruction of a legal header, its payload taken from the transfers `ts` after it. -/
def decodePayload (h : Header) (ts : List Transfer) : Decoded :=
  match h with
  | .reset => .instr .reset ts
  | .appendText n => withPayload h n .appendText ts
  | .appendAscii n => withPayload h n .appendAscii ts
  | .appendBytes n => withPayload h n (fun es => .appendBytes (es.map byteOfTransfer)) ts
  | .finalize raw => .instr (.finalize raw) ts

/-- R72, R74: a command is one header and then its payload. -/
def decodeTransfers : List Transfer → Decoded
  | [] => .empty
  | .data _ :: _ => .illegal .strayData
  | .header w :: ts =>
    match decodeHeader w with
    | .error r => .illegal r
    | .ok h => decodePayload h ts

/-! ## The micro-operations (R81) -/

/-- STEP 0 to STEP 15, in index order. -/
def stepsOfGroup0 : List Instr :=
  [.step0, .step1, .step2, .step3, .step4, .step5, .step6, .step7,
   .step8, .step9, .step10, .step11, .step12, .step13, .step14, .step15]

/-- STEP 16 to STEP 31, in index order. -/
def stepsOfGroup1 : List Instr :=
  [.step16, .step17, .step18, .step19, .step20, .step21, .step22, .step23,
   .step24, .step25, .step26, .step27, .step28, .step29, .step30, .step31]

/-- STEP 32 to STEP 47, in index order. -/
def stepsOfGroup2 : List Instr :=
  [.step32, .step33, .step34, .step35, .step36, .step37, .step38, .step39,
   .step40, .step41, .step42, .step43, .step44, .step45, .step46, .step47]

/-- STEP 48 to STEP 63, in index order. -/
def stepsOfGroup3 : List Instr :=
  [.step48, .step49, .step50, .step51, .step52, .step53, .step54, .step55,
   .step56, .step57, .step58, .step59, .step60, .step61, .step62, .step63]

/-- R81: `u` = 0 to 63 is STEP `u`; `0x40` is LOAD; `0x41` is FEEDFORWARD; the rest are unused. -/
def decodeMicroOp (u : BitVec 7) : Decoded :=
  match (stepsOfGroup0 ++ stepsOfGroup1 ++ stepsOfGroup2 ++ stepsOfGroup3)[u.toNat]? with
  | some i => .instr i []
  | none =>
    if u = 0x40 then .instr .load []
    else if u = 0x41 then .instr .feedforward []
    else .illegal (.unusedMicroOp u)

/-- The decoder, over both encoding spaces. -/
def decode : Code → Decoded
  | .transfers ts => decodeTransfers ts
  | .microOp u => decodeMicroOp u

/-! ## The encoder -/

/-- R72: a header word put together from its fields. -/
def headerWord (len : Nat) (raw : Bool) (op : BitVec 4) : Word :=
  BitVec.ofNat 24 len ++ (0 : BitVec 3) ++ BitVec.ofBool raw ++ op

/-- R74: an APPEND_BYTES element on the 16-bit data port; the ignored bits 15:8 are sent as 0. -/
def transferOfByte (b : Byte) : Half := b.setWidth 16

/-- R81: the index of a micro-operation; none for a command. -/
def microOpIndex : Instr → Option (BitVec 7)
  | .reset | .appendText _ | .appendAscii _ | .appendBytes _ | .finalize _ => none
  | .load => some 0x40
  | .step0 => some 0 | .step1 => some 1 | .step2 => some 2 | .step3 => some 3
  | .step4 => some 4 | .step5 => some 5 | .step6 => some 6 | .step7 => some 7
  | .step8 => some 8 | .step9 => some 9 | .step10 => some 10 | .step11 => some 11
  | .step12 => some 12 | .step13 => some 13 | .step14 => some 14 | .step15 => some 15
  | .step16 => some 16 | .step17 => some 17 | .step18 => some 18 | .step19 => some 19
  | .step20 => some 20 | .step21 => some 21 | .step22 => some 22 | .step23 => some 23
  | .step24 => some 24 | .step25 => some 25 | .step26 => some 26 | .step27 => some 27
  | .step28 => some 28 | .step29 => some 29 | .step30 => some 30 | .step31 => some 31
  | .step32 => some 32 | .step33 => some 33 | .step34 => some 34 | .step35 => some 35
  | .step36 => some 36 | .step37 => some 37 | .step38 => some 38 | .step39 => some 39
  | .step40 => some 40 | .step41 => some 41 | .step42 => some 42 | .step43 => some 43
  | .step44 => some 44 | .step45 => some 45 | .step46 => some 46 | .step47 => some 47
  | .step48 => some 48 | .step49 => some 49 | .step50 => some 50 | .step51 => some 51
  | .step52 => some 52 | .step53 => some 53 | .step54 => some 54 | .step55 => some 55
  | .step56 => some 56 | .step57 => some 57 | .step58 => some 58 | .step59 => some 59
  | .step60 => some 60 | .step61 => some 61 | .step62 => some 62 | .step63 => some 63
  | .feedforward => some 0x41

/-- R72 to R74: the transfers of a command; none for a micro-operation. -/
def commandTransfers : Instr → List Transfer
  | .reset => [.header (headerWord 0 false 0)]
  | .appendText units => .header (headerWord units.length false 1) :: units.map .data
  | .appendAscii chars => .header (headerWord chars.length false 2) :: chars.map .data
  | .appendBytes bytes =>
    .header (headerWord bytes.length false 3) :: bytes.map (fun b => .data (transferOfByte b))
  | .finalize raw => [.header (headerWord 0 raw 4)]
  | _ => []

/-- The code of an instruction. -/
def encode (i : Instr) : Code :=
  match microOpIndex i with
  | some u => .microOp u
  | none => .transfers (commandTransfers i)

/-! ## The opcode table's own words -/

/-- R73, R81: the row of spec/opcode_table.json an instruction stands in. -/
def opcodeRow : Instr → OpcodeRow
  | .reset => ⟨0x00000000, 0xFFFFFFFF⟩
  | .appendText _ => ⟨0x00000001, 0x000000FF⟩
  | .appendAscii _ => ⟨0x00000002, 0x000000FF⟩
  | .appendBytes _ => ⟨0x00000003, 0x000000FF⟩
  | .finalize _ => ⟨0x00000004, 0xFFFFFFEF⟩
  | .load => ⟨0x40, 0x7F⟩
  | .step0 => ⟨0, 0x7F⟩ | .step1 => ⟨1, 0x7F⟩ | .step2 => ⟨2, 0x7F⟩ | .step3 => ⟨3, 0x7F⟩
  | .step4 => ⟨4, 0x7F⟩ | .step5 => ⟨5, 0x7F⟩ | .step6 => ⟨6, 0x7F⟩ | .step7 => ⟨7, 0x7F⟩
  | .step8 => ⟨8, 0x7F⟩ | .step9 => ⟨9, 0x7F⟩ | .step10 => ⟨10, 0x7F⟩ | .step11 => ⟨11, 0x7F⟩
  | .step12 => ⟨12, 0x7F⟩ | .step13 => ⟨13, 0x7F⟩ | .step14 => ⟨14, 0x7F⟩ | .step15 => ⟨15, 0x7F⟩
  | .step16 => ⟨16, 0x7F⟩ | .step17 => ⟨17, 0x7F⟩ | .step18 => ⟨18, 0x7F⟩ | .step19 => ⟨19, 0x7F⟩
  | .step20 => ⟨20, 0x7F⟩ | .step21 => ⟨21, 0x7F⟩ | .step22 => ⟨22, 0x7F⟩ | .step23 => ⟨23, 0x7F⟩
  | .step24 => ⟨24, 0x7F⟩ | .step25 => ⟨25, 0x7F⟩ | .step26 => ⟨26, 0x7F⟩ | .step27 => ⟨27, 0x7F⟩
  | .step28 => ⟨28, 0x7F⟩ | .step29 => ⟨29, 0x7F⟩ | .step30 => ⟨30, 0x7F⟩ | .step31 => ⟨31, 0x7F⟩
  | .step32 => ⟨32, 0x7F⟩ | .step33 => ⟨33, 0x7F⟩ | .step34 => ⟨34, 0x7F⟩ | .step35 => ⟨35, 0x7F⟩
  | .step36 => ⟨36, 0x7F⟩ | .step37 => ⟨37, 0x7F⟩ | .step38 => ⟨38, 0x7F⟩ | .step39 => ⟨39, 0x7F⟩
  | .step40 => ⟨40, 0x7F⟩ | .step41 => ⟨41, 0x7F⟩ | .step42 => ⟨42, 0x7F⟩ | .step43 => ⟨43, 0x7F⟩
  | .step44 => ⟨44, 0x7F⟩ | .step45 => ⟨45, 0x7F⟩ | .step46 => ⟨46, 0x7F⟩ | .step47 => ⟨47, 0x7F⟩
  | .step48 => ⟨48, 0x7F⟩ | .step49 => ⟨49, 0x7F⟩ | .step50 => ⟨50, 0x7F⟩ | .step51 => ⟨51, 0x7F⟩
  | .step52 => ⟨52, 0x7F⟩ | .step53 => ⟨53, 0x7F⟩ | .step54 => ⟨54, 0x7F⟩ | .step55 => ⟨55, 0x7F⟩
  | .step56 => ⟨56, 0x7F⟩ | .step57 => ⟨57, 0x7F⟩ | .step58 => ⟨58, 0x7F⟩ | .step59 => ⟨59, 0x7F⟩
  | .step60 => ⟨60, 0x7F⟩ | .step61 => ⟨61, 0x7F⟩ | .step62 => ⟨62, 0x7F⟩ | .step63 => ⟨63, 0x7F⟩
  | .feedforward => ⟨0x41, 0x7F⟩

/-- The first word of a code: the header, or the micro-operation index. -/
def firstWord : Code → Option Word
  | .transfers (.header w :: _) => some w
  | .transfers _ => none
  | .microOp u => some (u.setWidth 32)

/-- The code whose bits are `w`, numbered as the opcode table numbers them. A word of at most 8 bits is
a 7-bit micro-operation index (format `UOP`), where an 8th bit that is set leaves nothing; a longer one
is a header in bits 31:0 and then, element by element, the 16-bit transfers of its payload in the bits
above (log 11). -/
def codeOfTableWord (nbits w : Nat) : Option Code :=
  if nbits ≤ 8 then
    if w < 128 then some (.microOp (BitVec.ofNat 7 w)) else none
  else
    let h : Word := BitVec.ofNat 32 w
    let elements : List Transfer :=
      match decodeHeader h with
      | .ok (.appendText n) | .ok (.appendAscii n) | .ok (.appendBytes n) =>
        (List.range n).map fun j => .data (BitVec.ofNat 16 (w >>> (32 + 16 * j)))
      | _ => []
    some (.transfers (.header h :: elements))

/-- The instruction the decoder reads from a word of the opcode table. -/
def decodeTableWord (nbits w : Nat) : Option Instr :=
  match (codeOfTableWord nbits w).map decode with
  | some (.instr i _) => some i
  | _ => none

end Sys2Proof
end

