-- ==== Sys2Proof/Machine/Fetch.lean ====
section
/-! DEFINITION. Where the next instruction comes from. There is no program counter and no fetch from memory
(spec/10_state.md R37): while the sequencer is out of `C_IDLE` it names the next micro-operation (R106);
in `C_IDLE` the next command is taken from the port (R72, R74). -/

namespace Sys2Proof.Machine

/-- What a fetch finds. -/
inductive Fetched where
  /-- A micro-operation of the COMPRESS that runs. -/
  | microOp (i : Instr)
  /-- A whole command, and the transfers after it. -/
  | command (i : Instr) (rest : List Transfer)
  /-- Nothing to run yet: the engine is idle, or waits for the rest of a payload. -/
  | wait
  /-- No defined behaviour. -/
  | refuse (r : Refusal)
  deriving DecidableEq, Repr

/-- R81: the micro-operation index of a sequencer state; none in `C_IDLE`, and none in `C_STEP` with the
index at "done", which is no state of R106. -/
def seqIndex (s : State) : Option (BitVec 7) :=
  match s.seq with
  | .cIdle => none
  | .cLoad => some 0x40
  | .cStep => if s.i.val < 64 then some (BitVec.ofNat 7 s.i.val) else none
  | .cAdd => some 0x41

/-- R165: the header is decoded and an illegal one refused; then the phase is checked, before any payload
element is looked at; `ready` says that the phase lets the command of a header run. -/
def headerRuns (h : Header) (s : State) : Bool :=
  match h with
  | .reset => true
  | _ => decide (s.phase = .ready)

/-- R165 at the port. A payload still arriving is waited for only where the command could run; a payload
cut by another header is refused as an overlap only there too. -/
def fetchCommand (s : State) : Fetched :=
  match s.port with
  | [] => .wait
  | .data _ :: _ => .refuse (.illegal .strayData)
  | .header w :: ts =>
    match decodeHeader w with
    | .error r => .refuse (.illegal r)
    | .ok h =>
      if headerRuns h s then
        match decodePayload h ts with
        | .instr i rest => .command i rest
        | .empty | .waiting _ => .wait
        | .illegal r => .refuse (.illegal r)
      else .refuse (.wrongPhase s.phase)

/-- The next instruction of the engine. -/
def fetch (s : State) : Fetched :=
  match s.seq with
  | .cIdle => fetchCommand s
  | _ =>
    match seqIndex s with
    | none => .refuse .noMicroOp
    | some u =>
      match decode (.microOp u) with
      | .instr i _ => .microOp i
      | .illegal r => .refuse (.illegal r)
      | .empty | .waiting _ => .refuse .noMicroOp

/-- What is done once a micro-operation has run: the sequencer leaves its state (R106). -/
def afterMicroOp : Outcome → Outcome
  | .next s => .next (advanceSeq s)
  | o => o

/-- A command has left the port; its response comes after its effects (R78). -/
def consume (s : State) (rest : List Transfer) : State := { s with port := rest }

/-- The sequencer set to the state that runs micro-operation `u` next; an unused index is the state
that has none. -/
def placeMicroOp (s : State) (u : Nat) : State :=
  if h : u < 64 then { s with seq := .cStep, i := ⟨u, by omega⟩ }
  else if u = 0x40 then { s with seq := .cLoad }
  else if u = 0x41 then { s with seq := .cAdd }
  else { s with seq := .cStep, i := 64 }

/-- A code put where the fetch takes its next instruction from: the transfers at the head of the port,
with the sequencer in `C_IDLE`; a micro-operation in the sequencer. -/
def placeCode (s : State) : Code → State
  | .transfers ts => { s with seq := .cIdle, port := ts ++ s.port }
  | .microOp u => placeMicroOp s u.toNat

end Sys2Proof.Machine
end

