-- ==== Sys2Proof/Machine/Step.lean ====
section
/-! DEFINITION. One step of the engine: a whole command (spec/00_scope.md R5), or, where a COMPRESS is under
way in the sequencer, one micro-operation (R106). With nothing to run the engine is idle and holds its
state (R171). -/

namespace Sys2Proof.Machine

/-- One step. -/
def step (s : State) : Host.Outcome State Fault Refusal :=
  match fetch s with
  | .microOp i => afterMicroOp (exec i s)
  | .command i rest => exec i (consume s rest)
  | .wait => .next s
  | .refuse r => .refused r

/-- The state with the instruction of an opcode-table word stored where `step` fetches its next
instruction (log 10, 11). -/
def State.withFetchWord (s : State) (nbits w : Nat) : State :=
  match codeOfTableWord nbits w with
  | some c => placeCode s c
  | none => placeMicroOp s 0x7F

end Sys2Proof.Machine
end

