-- ==== Sys2Proof/Machine/Reference.lean ====
section
/-! DEFINITION. What the engine computes, said without its state: COMPRESS as a function (spec/41_compress.md
R95, R104), the padded message and `MD5(M)` (spec/43_finalize.md R141, R147), the bytes of a text
(spec/42_append.md R131), and the pseudo-commands HASH and HASH_ASCII (spec/44_oneshot.md). `exec` uses
none of this; the statements compare it with `exec`. -/

namespace Sys2Proof.Machine

/-! ## COMPRESS as a function -/

/-- R104: the working registers after steps 0 to `n-1`, from `q`, on the block whose words are `x`. -/
def roundSteps (x : Nat → Word) : Nat → ABCD → ABCD
  | 0, q => q
  | n + 1, q =>
    roundStep (groupFn (n / 16)) (x (wordIndex n)) (rotation n) (additive n) (roundSteps x n q)

/-- R104: `COMPRESS(H, BUF) = H +32 step_63(... step_0(H) ...)`. -/
def compressFn (h : ABCD) (x : Nat → Word) : ABCD := h.add (roundSteps x 64 h)

/-- R51, R96: word `k` of a block given by its bytes, little-endian. -/
def wordOfBytes (f : Nat → Byte) (k : Nat) : Word :=
  f (4 * k + 3) ++ f (4 * k + 2) ++ f (4 * k + 1) ++ f (4 * k)

/-- COMPRESS on a block given by its bytes, byte 0 first. -/
def compressBytes (h : ABCD) (f : Nat → Byte) : ABCD := compressFn h (wordOfBytes f)

/-! ## The message -/

/-- R28: COMPRESS folded over the first `n` blocks of the message `m`, from `h`; block `n` is the bytes from
`64 * n` on. -/
def foldBlocks : Nat → List Byte → ABCD → ABCD
  | 0, _, h => h
  | n + 1, m, h => compressBytes (foldBlocks n m h) fun j => m.getD (64 * n + j) 0

/-- R52, R147: `LE64(bits mod 2^64)`, the eight bytes of the length field. -/
def lengthField (bits : Nat) : List Byte :=
  (List.range 8).map fun j => BitVec.ofNat 8 (bits / 2 ^ (8 * j))

/-- R141: the message, `0x80`, the least number of zeros that brings the length to 56 modulo 64, and the
length field. -/
def paddedMessage (m : List Byte) : List Byte :=
  m ++ [0x80] ++ List.replicate ((119 - m.length % 64) % 64) 0 ++ lengthField (8 * m.length)

/-- R147: `MD5(M)`, `IV` folded with COMPRESS over the blocks of the padded message. -/
def md5 (m : List Byte) : ABCD :=
  foldBlocks ((paddedMessage m).length / 64) (paddedMessage m) ivHash

/-! ## The blocks FINALIZE compresses, from a state -/

/-- R141: byte `j` of the block in which padding starts, where it is not the last one: the residual
bytes, `0x80`, zeros. -/
def firstPadByte (s : State) (j : Nat) : Byte :=
  if j < s.bufferLength.val then s.buf.read j else if j = s.bufferLength.val then 0x80 else 0

/-- R52, R142: byte `j` of a last block, its bytes below 56 being `f j`: bytes 56 to 63 are the bit
length of `len` bytes, little-endian. -/
def lastBlockByte (len : Count) (f : Nat → Byte) (j : Nat) : Byte :=
  if j < 56 then f j else (len * 8).extractLsb' (8 * (j - 56)) 8

/-- R140, R141: the digest FINALIZE forms from a state: one block where at most 55 residual bytes stand
in the buffer, two otherwise. -/
def finalDigest (s : State) : ABCD :=
  let len : Count := s.totalLength + BitVec.ofNat 64 s.bufferLength.val
  if s.bufferLength.val ≤ 55 then compressBytes s.h (lastBlockByte len (firstPadByte s))
  else compressBytes (compressBytes s.h (firstPadByte s)) (lastBlockByte len fun _ => 0)

/-! ## Text -/

/-- R124, R131: the bytes of a whole text, the concatenation of the encoder's outputs; the cause where a
unit is in error, which is the first such unit in payload order (R126). -/
def encodeText : List Half → Except EncodingCause (List Byte)
  | [] => .ok []
  | [u] =>
    match encodeUnit u none with
    | .one bs | .pair bs => .ok bs
    | .error c => .error c
  | u :: v :: rest =>
    match encodeUnit u (some v) with
    | .one bs =>
      match encodeText (v :: rest) with
      | .ok bs' => .ok (bs ++ bs')
      | .error c => .error c
    | .pair bs =>
      match encodeText rest with
      | .ok bs' => .ok (bs ++ bs')
      | .error c => .error c
    | .error c => .error c

/-- R125, R126: the text has no lone surrogate: a low surrogate stands only after a high one, and a high
one only before a low one. -/
def wellPaired : List Half → Bool
  | [] => true
  | [u] => !isHigh u && !isLow u
  | u :: v :: rest =>
    if isHigh u then isLow v && wellPaired rest
    else !isLow u && wellPaired (v :: rest)

/-- The code point that a UTF-8 byte sequence of one to four bytes stands for, read from the payload bits
of the patterns of R125. -/
def utf8Value : List Byte → Nat
  | [x] => x.toNat
  | [x, y] => (x.toNat % 32) * 64 + y.toNat % 64
  | [x, y, z] => (x.toNat % 16) * 4096 + (y.toNat % 64) * 64 + z.toNat % 64
  | [x, y, z, t] =>
    (x.toNat % 8) * 262144 + (y.toNat % 64) * 4096 + (z.toNat % 64) * 64 + t.toNat % 64
  | _ => 0

/-- R120, R131: the bytes an append command pushes; none where it is in error or is no append command. -/
def pushedBytes : Instr → Option (List Byte)
  | .appendBytes bytes => some bytes
  | .appendAscii chars => some (chars.map asciiByte)
  | .appendText units =>
    match encodeText units with
    | .ok bs => some bs
    | .error _ => none
  | _ => none

/-- R10: the message of a list of append commands, the bytes they push, in order; none where one of them
is in error or is no append command. -/
def messageOf : List Instr → Option (List Byte)
  | [] => some []
  | i :: is =>
    match pushedBytes i, messageOf is with
    | some p, some q => some (p ++ q)
    | _, _ => none

/-! ## Sequences of commands -/

/-- A list of instructions, each run from the state the one before it left (R60); the first that does
not complete ends the run. -/
def execAll : List Instr → State → Outcome
  | [], s => .next s
  | i :: is, s =>
    match exec i s with
    | .next t => execAll is t
    | o => o

/-! ## The one-shot pseudo-commands -/

/-- R75: the most elements one append command carries, `2^24 - 1`. -/
def payloadMax : Nat := payloadBound - 1

/-- R75: a payload cut into the payloads of several commands where it has more than `n` elements: `cut` says how
many elements the next one takes. The first argument bounds the number of cuts; the length is enough. -/
def cutPayload (cut : List Half → Nat) (n : Nat) : Nat → List Half → List (List Half)
  | 0, us => [us]
  | fuel + 1, us =>
    if us.length ≤ n then [us]
    else us.take (cut us) :: cutPayload cut n fuel (us.drop (cut us))

/-- R75, R127, R190: of a text longer than `n`, the next command takes `n` units, or one less where a surrogate
pair would be cut (log 21). -/
def textCut (n : Nat) (us : List Half) : Nat :=
  if isHigh (us.getD (n - 1) 0) && isLow (us.getD n 0) then n - 1 else n

/-- The payloads of the APPEND_TEXT commands of a text (R155), with `n` units at most in each. -/
def textPieces (n : Nat) (units : List Half) : List (List Half) :=
  cutPayload (textCut n) n units.length units

/-- R75: the payloads of the APPEND_ASCII commands of a text (R156), with `n` codes at most in each. -/
def asciiPieces (n : Nat) (chars : List Half) : List (List Half) :=
  cutPayload (fun _ => n) n chars.length chars

/-- R155: `APPEND_TEXT text`, "several commands if len > 2^24 - 1". -/
def textCommands (units : List Half) : List Instr := (textPieces payloadMax units).map .appendText

/-- R156, R75: `APPEND_ASCII text`, several commands where one header cannot hold its length. -/
def asciiCommands (chars : List Half) : List Instr := (asciiPieces payloadMax chars).map .appendAscii

/-- R155: the commands issued one after the other; once one has answered `ERROR`, which leaves the engine
FAULTED, the rest are not issued. -/
def issueUntilError : List Instr → State → Outcome
  | [], s => .next s
  | i :: is, s =>
    if s.phase = .faulted then .next s
    else
      match exec i s with
      | .next t => issueUntilError is t
      | o => o

/-- R155: the pseudo-command `HASH text [raw]`. -/
def hashText (units : List Half) (raw : Bool) (s : State) : Outcome :=
  match exec .reset s with
  | .next t => issueUntilError (textCommands units ++ [.finalize raw]) t
  | o => o

/-- R156: the pseudo-command `HASH_ASCII text [raw]`. -/
def hashAscii (chars : List Half) (raw : Bool) (s : State) : Outcome :=
  execAll (.reset :: asciiCommands chars ++ [.finalize raw]) s

end Sys2Proof.Machine
end

