-- ==== Sys2Proof/Safety.lean ====
section
/-! DEFINITION. What counts as a safe step and a safe run, the invariant every step keeps, and what it means
that a state holds a message: the terms the statements use. -/

namespace Sys2Proof.Machine

/-- R194: a step has gone wrong when it was refused; an `ERROR` response is a defined outcome. -/
def SafeStep (s : State) : Prop := ∃ t, step s = .next t

/-- R194: a run of `n` steps in which none was refused. -/
def SafeRun (n : Nat) (s : State) : Prop := ∃ t, Host.Core.run Sys2Proof.core n s = .next t

/-- The commands of R70, as against the micro-operations of R81. -/
def isCommand : Instr → Bool
  | .reset | .appendText _ | .appendAscii _ | .appendBytes _ | .finalize _ => true
  | _ => false

/-- What every step keeps: the buffer is in canonical form; the counter is a multiple of 64 in phase READY
(R28); in `C_STEP` the step index names a step (R106). That `bufferLength` is below 64 is in its type. -/
def State.Inv (s : State) : Prop :=
  s.buf.wf ∧ (s.phase = .ready → s.totalLength.toNat % 64 = 0) ∧ (s.seq = .cStep → s.i.val < 64)

/-- R28: the state is READY and holds the message `m`: the full blocks have been folded into `H`, the rest
stands at the head of the buffer, and the two counters say how much is where. -/
def Holds (m : List Byte) (s : State) : Prop :=
  s.phase = .ready ∧
  s.bufferLength.val = m.length % 64 ∧
  s.totalLength = BitVec.ofNat 64 (64 * (m.length / 64)) ∧
  s.h = foldBlocks (m.length / 64) m ivHash ∧
  ∀ j, j < m.length % 64 → s.buf.read j = m.getD (64 * (m.length / 64) + j) 0

/-- R129: the context as far as it is defined: `(PHASE, H, BUF[0..bufferLength-1], bufferLength,
totalLength)` agree. -/
def SameContext (s t : State) : Prop :=
  s.phase = t.phase ∧ s.h = t.h ∧ s.bufferLength = t.bufferLength ∧
  s.totalLength = t.totalLength ∧ ∀ j, j < s.bufferLength.val → s.buf.read j = t.buf.read j

/-- R129: from `s`, the commands one after the other complete, the one command completes, and both leave the
same context. -/
def SameAsOne (cmds : List Instr) (one : Instr) (s : State) : Prop :=
  ∃ t u, execAll cmds s = .next t ∧ exec one s = .next u ∧ SameContext t u

/-- What a command never touches: the port and the sequencer. -/
def SameSurroundings (s t : State) : Prop := s.port = t.port ∧ s.seq = t.seq

end Sys2Proof.Machine
end

