-- ==== Sys2Proof/Certificates/Slice0/Obligations.lean ====
section
/-! DEFINITION. The statements about the engine. Each docstring names the rule of spec/ it formalises; where a
clause is the model's own convention, it names the entry of the assumption log. A statement about free
values holds whatever they are. -/

open Sys2Proof Sys2Proof.Machine

/-! ## Encoding -/

/-- The header words of spec/95_test_vectors.md section 2.10 and the micro-operation indices 0x3F to 0x41 of R81,
each decoded by hand. The last clause is the model's choice: R81 calls the index 0x42 unused and says no more,
and the model's decoder rejects it (log 16). -/
def Obligations.WrittenOutWordsDecode : Prop :=
  decode (.transfers [.header 0x00000000]) = .instr .reset [] ∧
  decode (.transfers [.header 0x00000201, .data 0x006C, .data 0x006F])
    = .instr (.appendText [0x006C, 0x006F]) [] ∧
  decode (.transfers [.header 0x00000302, .data 0x0068, .data 0x0065, .data 0x006C, .header 4])
    = .instr (.appendAscii [0x0068, 0x0065, 0x006C]) [.header 4] ∧
  decode (.transfers [.header 0x00000303, .data 0x0061, .data 0xFF62, .data 0x0063])
    = .instr (.appendBytes [0x61, 0x62, 0x63]) [] ∧
  decode (.transfers [.header 0x00000004]) = .instr (.finalize false) [] ∧
  decode (.transfers [.header 0x00000014]) = .instr (.finalize true) [] ∧
  decode (.transfers [.header 0x00000100]) = .illegal .lengthNotAllowed ∧
  decode (.transfers [.header 0x00000010]) = .illegal .rawOutsideFinalize ∧
  decode (.transfers [.header 0x00000013]) = .illegal .rawOutsideFinalize ∧
  decode (.transfers [.header 0x00000023]) = .illegal .reservedBits ∧
  decode (.transfers [.header 0x00000104]) = .illegal .lengthNotAllowed ∧
  decode (.transfers [.header 0x00000005]) = .illegal (.reservedOp 5) ∧
  decode (.microOp 0x3F) = .instr .step63 [] ∧
  decode (.microOp 0x40) = .instr .load [] ∧
  decode (.microOp 0x41) = .instr .feedforward [] ∧
  decode (.microOp 0x42) = .illegal (.unusedMicroOp 0x42)

/-- R72, R74, R81: what the encoder writes for a well-formed instruction, the decoder reads back, with
every operand at every value; a command's code may be followed by any transfers, which are left. -/
def Obligations.EncodedInstructionDecodesBack : Prop :=
  ∀ i : Instr, i.wf = true →
    match encode i with
    | .transfers ts => ∀ rest, decode (.transfers (ts ++ rest)) = .instr i rest
    | .microOp u => decode (.microOp u) = .instr i []

/-- R73: a header selects the command of a row exactly when `w & mask = match`, and `LEN` and `RAW` are
bits 31:8 and 4. -/
def Obligations.HeaderSelectsItsTableRow : Prop :=
  ∀ w : Word,
    (w &&& 0xFFFFFFFF = 0x00000000 ↔ decodeHeader w = .ok .reset) ∧
    (w &&& 0x000000FF = 0x00000001 ↔ decodeHeader w = .ok (.appendText (w.toNat / 256))) ∧
    (w &&& 0x000000FF = 0x00000002 ↔ decodeHeader w = .ok (.appendAscii (w.toNat / 256))) ∧
    (w &&& 0x000000FF = 0x00000003 ↔ decodeHeader w = .ok (.appendBytes (w.toNat / 256))) ∧
    (w &&& 0xFFFFFFEF = 0x00000004 ↔ decodeHeader w = .ok (.finalize (w.getLsbD 4)))

/-- R77: a header is illegal in exactly the four cases, and a step that finds an illegal header is refused,
whatever follows it and whatever the phase. -/
def Obligations.IllegalHeaderIsRefused : Prop :=
  ∀ w : Word,
    ((5 ≤ w.toNat % 16 ∨ w.toNat / 32 % 8 ≠ 0 ∨
        (w.toNat / 16 % 2 = 1 ∧ w.toNat % 16 ≠ 4) ∨
        (w.toNat / 256 ≠ 0 ∧ (w.toNat % 16 = 0 ∨ w.toNat % 16 = 4))) ↔
      ∃ r, decodeHeader w = .error r) ∧
    ∀ (r : Reject) (s : State) (ts : List Transfer),
      decodeHeader w = .error r → s.seq = .cIdle → s.port = .header w :: ts →
        step s = .refused (.illegal r)

/-- R74: bits 15:8 of an APPEND_BYTES transfer are ignored: two payloads that agree in bits 7:0, transfer by
transfer, are the same command. -/
def Obligations.ByteTransferHighBitsIgnored : Prop :=
  ∀ (es es' : List Half) (rest : List Transfer) (w : Word),
    w.toNat % 256 = 3 → w.toNat / 256 = es.length →
    es.map (fun e => e.toNat % 256) = es'.map (fun e => e.toNat % 256) →
      decode (.transfers (.header w :: es.map .data ++ rest)) =
        .instr (.appendBytes (es'.map (fun e => BitVec.ofNat 8 e.toNat))) rest

/-! ## The step -/

/-- R60, R72: in `C_IDLE`, where the transfers on the port are those of a whole command, a step is `exec` of
that command, with its transfers gone from the port. -/
def Obligations.StepRunsTheDecodedCommand : Prop :=
  ∀ (s : State) (i : Instr) (rest : List Transfer),
    s.seq = .cIdle → decode (.transfers s.port) = .instr i rest →
      step s = exec i { s with port := rest }

/-- The micro-operation of each sequencer state is that of R81 and R106. That one micro-operation is one step is the
model's reading (log 15; R5 and D2 leave it to the model): out of `C_IDLE`, a step is `exec` of the
micro-operation the sequencer stands at, after which the sequencer leaves its state. -/
def Obligations.StepRunsTheSequencedMicroOp : Prop :=
  ∀ (s : State) (i : Instr) (u : BitVec 7),
    (s.seq = .cLoad ∧ u = 0x40) ∨ (s.seq = .cAdd ∧ u = 0x41) ∨
      (s.seq = .cStep ∧ s.i.val < 64 ∧ u = BitVec.ofNat 7 s.i.val) →
    decode (.microOp u) = .instr i [] →
      ∃ t, exec i s = .next t ∧ step s = .next (advanceSeq t)

/-- R165: (1) an illegal header is refused whatever the phase; (2) then a command other than RESET outside
READY is refused whatever its payload, arrived or not; (3) the payload is processed in order and the first
unit in error ends the text with EncodingError: later units are not examined. -/
def Obligations.ChecksAreMadeInOrder : Prop :=
  (∀ (s : State) (w : Word) (ts : List Transfer) (r : Reject),
    s.seq = .cIdle → s.port = .header w :: ts → decodeHeader w = .error r →
      step s = .refused (.illegal r)) ∧
  (∀ (s : State) (w : Word) (ts : List Transfer) (h : Header),
    s.seq = .cIdle → s.port = .header w :: ts → decodeHeader w = .ok h → h ≠ .reset →
      s.phase ≠ .ready → step s = .refused (.wrongPhase s.phase)) ∧
  (∀ (s : State) (before after : List Half) (bs : List Byte) (u : Half) (c : EncodingCause),
    s.phase = .ready → encodeText before = .ok bs → encodeUnit u after.head? = .error c →
      ∃ t, exec (.appendText (before ++ u :: after)) s = .next t ∧
        exec (.appendText (before ++ u :: after.take 1)) s = .next t ∧
        t.phase = .faulted ∧ t.out = s.out ++ [.error 1])

/-- R171, R74: with no transfer on the port, or with a payload that has not all arrived, the engine holds
its state. That an engine which waits for the rest of a payload takes a step that changes nothing is the
model's choice (log 7). -/
def Obligations.IdleEngineHoldsItsState : Prop :=
  ∀ s : State, s.seq = .cIdle →
    (s.port = [] → step s = .next s) ∧
    (∀ (w : Word) (h : Header) (n : Nat) (es : List Half), s.phase = .ready →
      decodeHeader w = .ok h → (h = .appendText n ∨ h = .appendAscii n ∨ h = .appendBytes n) →
      s.port = .header w :: es.map .data → es.length < n → step s = .next s)

/-! ## RESET and the phases -/

/-- R185, R186: power-on is phase UNINIT with the sequencer in `C_IDLE`, and no command but RESET runs there. The
values the registers hold there are the model's choice (log 1) and no clause rests on them. -/
def Obligations.PowerOnNeedsReset : Prop :=
  State.reset.phase = .uninit ∧ State.reset.seq = .cIdle ∧
  (∀ i : Instr, isCommand i = true → i ≠ .reset →
    exec i State.reset = .refused (.wrongPhase .uninit)) ∧
  ∃ t, exec .reset State.reset = .next t ∧ t.phase = .ready

/-- R90: RESET, header `0x00000000`, from any state and in any phase: a fresh context and `OK`; `BUF` and
everything that is not of the context stay. -/
def Obligations.ResetGivesFreshContext : Prop :=
  (∀ rest, decode (.transfers (.header 0x00000000 :: rest)) = .instr .reset rest) ∧
  ∀ s : State, ∃ t, exec .reset s = .next t ∧
    t.phase = .ready ∧ t.h = ⟨0x67452301, 0xEFCDAB89, 0x98BADCFE, 0x10325476⟩ ∧
    t.bufferLength.val = 0 ∧ t.totalLength = 0 ∧ t.out = s.out ++ [.ok] ∧
    (∀ j, t.buf.read j = s.buf.read j) ∧
    t.w = s.w ∧ t.i = s.i ∧ t.seq = s.seq ∧ t.port = s.port

/-- R92: RESET after RESET changes nothing of the context; RESET gives no digest; and no other command leaves the
phases SPENT and FAULTED. -/
def Obligations.ResetIsIdempotent : Prop :=
  (∀ s : State, ∃ t u, exec .reset s = .next t ∧ exec .reset t = .next u ∧
    u.phase = t.phase ∧ u.h = t.h ∧ u.bufferLength = t.bufferLength ∧
    u.totalLength = t.totalLength ∧ (∀ j, u.buf.read j = t.buf.read j) ∧
    t.out = s.out ++ [.ok]) ∧
  ∀ (i : Instr) (s t : State), isCommand i = true → s.phase = .spent ∨ s.phase = .faulted →
    exec i s = .next t → i = .reset

/-- R91: what follows a RESET does not depend on the state before it: from any two states, RESET and then the
same commands give the same responses, or are refused for the same reason. -/
def Obligations.HistoryBeforeResetIsInvisible : Prop :=
  ∀ (s s' : State) (cmds : List Instr), (∀ i ∈ cmds, isCommand i = true) →
    match execAll (.reset :: cmds) s, execAll (.reset :: cmds) s' with
    | .next t, .next t' => ∃ rs, t.out = s.out ++ rs ∧ t'.out = s'.out ++ rs
    | .refused r, .refused r' => r = r'
    | _, _ => False

/-- R29: the values of `PHASE`, and its transitions, the only ones. -/
def Obligations.PhaseTransitionsAreTheOnlyOnes : Prop :=
  Phase.uninit.code = 0 ∧ Phase.ready.code = 1 ∧ Phase.spent.code = 2 ∧ Phase.faulted.code = 3 ∧
  ∀ (i : Instr) (s : State), isCommand i = true →
    match exec i s with
    | .next t =>
      match i with
      | .reset => t.phase = .ready
      | .finalize _ => s.phase = .ready ∧ t.phase = .spent
      | .appendText units => s.phase = .ready ∧
          ((∃ bs, encodeText units = .ok bs) ∧ t.phase = .ready ∨
            (∃ c, encodeText units = .error c) ∧ t.phase = .faulted)
      | _ => s.phase = .ready ∧ t.phase = .ready
    | .refused r => i ≠ .reset ∧ s.phase ≠ .ready ∧ r = .wrongPhase s.phase
    | .fault _ => False

/-- R169: the cases in which a command is refused: an append command or FINALIZE outside READY, an illegal
header, and (log 13) a header that comes while a command is still being handed over. -/
def Obligations.UndefinedCommandsAreRefused : Prop :=
  (∀ (i : Instr) (s : State), isCommand i = true → i ≠ .reset → s.phase ≠ .ready →
    exec i s = .refused (.wrongPhase s.phase)) ∧
  (∀ (s : State) (w : Word) (ts : List Transfer) (r : Reject),
    s.seq = .cIdle → s.port = .header w :: ts → decodeHeader w = .error r →
      step s = .refused (.illegal r)) ∧
  (∀ (s : State) (w v : Word) (h : Header) (n : Nat) (es : List Half) (ts : List Transfer),
    s.seq = .cIdle → s.port = .header w :: es.map .data ++ .header v :: ts →
      decodeHeader w = .ok h → (h = .appendText n ∨ h = .appendAscii n ∨ h = .appendBytes n) →
      es.length < n → ∃ r, step s = .refused r)

/-! ## Fill, drain and the append commands -/

/-- R120, R121: PUSHBYTE writes the byte at the cursor and raises it; at 64 the full buffer is compressed, the
counter goes up by 64 and the cursor back to 0. Nothing else changes but the hidden registers, which a
COMPRESS leaves unspecified. -/
def Obligations.PushByteFillsAndDrains : Prop :=
  ∀ (v : Byte) (s : State),
    (∀ j, (pushByte v s).buf.read j = if j = s.bufferLength.val then v else s.buf.read j) ∧
    (pushByte v s).phase = s.phase ∧ (pushByte v s).seq = s.seq ∧
    (pushByte v s).port = s.port ∧ (pushByte v s).out = s.out ∧
    (s.bufferLength.val < 63 →
      (pushByte v s).bufferLength.val = s.bufferLength.val + 1 ∧ (pushByte v s).h = s.h ∧
      (pushByte v s).totalLength = s.totalLength ∧ (pushByte v s).w = s.w ∧
      (pushByte v s).i = s.i) ∧
    (s.bufferLength.val = 63 →
      (pushByte v s).bufferLength.val = 0 ∧
      (pushByte v s).h = compressBytes s.h (fun j => if j = 63 then v else s.buf.read j) ∧
      (pushByte v s).totalLength = s.totalLength + 64)

/-- R122: APPEND_BYTES (header `OP` = `0x3`) pushes its bytes in order and answers `OK`; it is refused outside READY; from cursor `c`,
`n` bytes cause `(c + n) div 64` drains and leave the cursor at `(c + n) mod 64`; the bytes stored to are those at the
offsets `(c + k) mod 64`, `k < n`, and every other byte of the buffer stays. -/
def Obligations.AppendBytesPushesEachByte : Prop :=
  (∀ w : Word, w.toNat % 256 = 3 → decodeHeader w = .ok (.appendBytes (w.toNat / 256))) ∧
  ∀ (bytes : List Byte) (s : State),
    (s.phase ≠ .ready → exec (.appendBytes bytes) s = .refused (.wrongPhase s.phase)) ∧
    (s.phase = .ready → ∃ t, exec (.appendBytes bytes) s = .next t ∧
      t = respond .ok (bytes.foldl (fun s v => pushByte v s) s) ∧
      t.phase = .ready ∧ t.out = s.out ++ [.ok] ∧ t.seq = s.seq ∧ t.port = s.port ∧
      t.bufferLength.val = (s.bufferLength.val + bytes.length) % 64 ∧
      t.totalLength =
        s.totalLength + BitVec.ofNat 64 (64 * ((s.bufferLength.val + bytes.length) / 64)) ∧
      ∀ j, (∀ k, k < bytes.length → (s.bufferLength.val + k) % 64 ≠ j) →
        t.buf.read j = s.buf.read j)

/-- R21, R24, R122: a payload that does not fill the buffer writes its bytes at the cursor, raises the cursor,
and leaves everything else as it was, every other byte of the buffer and the hash state among it. -/
def Obligations.ShortAppendLeavesTheRest : Prop :=
  ∀ (bytes : List Byte) (s : State), s.phase = .ready →
    s.bufferLength.val + bytes.length < 64 →
    ∃ t, exec (.appendBytes bytes) s = .next t ∧
      t.bufferLength.val = s.bufferLength.val + bytes.length ∧
      (∀ j, s.bufferLength.val ≤ j → j < s.bufferLength.val + bytes.length →
        t.buf.read j = bytes.getD (j - s.bufferLength.val) 0) ∧
      (∀ j, j < s.bufferLength.val ∨ s.bufferLength.val + bytes.length ≤ j →
        t.buf.read j = s.buf.read j) ∧
      t.phase = .ready ∧ t.h = s.h ∧ t.totalLength = s.totalLength ∧ t.w = s.w ∧ t.i = s.i ∧
      t.seq = s.seq ∧ t.port = s.port ∧ t.out = s.out ++ [.ok]

/-- R123: APPEND_ASCII (header `OP` = `0x2`) pushes bits 7:0 of each character code, whatever the code, and answers `OK`; it is refused
outside READY and cannot fail. -/
def Obligations.AppendAsciiTruncatesEachCode : Prop :=
  (∀ w : Word, w.toNat % 256 = 2 → decodeHeader w = .ok (.appendAscii (w.toNat / 256))) ∧
  ∀ (chars : List Half) (s : State),
    (s.phase ≠ .ready → exec (.appendAscii chars) s = .refused (.wrongPhase s.phase)) ∧
    (s.phase = .ready → ∃ t, exec (.appendAscii chars) s = .next t ∧
      t = respond .ok
        (chars.foldl (fun s c => pushByte (BitVec.ofNat 8 (c.toNat % 256)) s) s) ∧
      t.phase = .ready ∧ t.out = s.out ++ [.ok] ∧ t.seq = s.seq ∧ t.port = s.port)

/-- R131: the three paths agree: APPEND_ASCII with APPEND_BYTES of the truncated codes, APPEND_TEXT without error
with APPEND_BYTES of the encoder's outputs, and all three on units below `0x80`. -/
def Obligations.TextAndAsciiPathsAreBytePaths : Prop :=
  ∀ (units : List Half) (s : State),
    exec (.appendAscii units) s =
      exec (.appendBytes (units.map fun c => BitVec.ofNat 8 (c.toNat % 256))) s ∧
    (∀ bs, encodeText units = .ok bs → exec (.appendText units) s = exec (.appendBytes bs) s) ∧
    ((∀ u ∈ units, u.toNat < 0x80) →
      exec (.appendText units) s = exec (.appendAscii units) s)

/-- R124, R125: APPEND_TEXT of a text without a lone surrogate completes in READY with `OK`, whatever stands in the
rest of the state. -/
def Obligations.WellPairedTextCompletes : Prop :=
  ∀ (units : List Half) (s : State), s.phase = .ready → wellPaired units = true →
    ∃ bs t, encodeText units = .ok bs ∧ exec (.appendText units) s = .next t ∧
      t = respond .ok (bs.foldl (fun s v => pushByte v s) s) ∧
      t.phase = .ready ∧ t.out = s.out ++ [.ok] ∧ t.seq = s.seq ∧ t.port = s.port

/-- R126, R161, R166: a text with a lone surrogate takes EncodingError: phase FAULTED, `ERROR` with code 1, whose status
word is `0x00000007`; then every command but RESET is refused, and RESET makes a fresh context (R167). The context
in FAULTED is a free value and no clause speaks of it. -/
def Obligations.LoneSurrogateTakesEncodingError : Prop :=
  ∀ (units : List Half) (s : State), s.phase = .ready → wellPaired units = false →
    ∃ t, exec (.appendText units) s = .next t ∧
      t.phase = .faulted ∧ t.out = s.out ++ [.error 1] ∧
      (Response.error 1).statusWord = 0x00000007 ∧ t.seq = s.seq ∧ t.port = s.port ∧
      (∀ i, isCommand i = true → i ≠ .reset → exec i t = .refused (.wrongPhase .faulted)) ∧
      ∃ u, exec .reset t = .next u ∧ u.phase = .ready ∧
        u.h = ⟨0x67452301, 0xEFCDAB89, 0x98BADCFE, 0x10325476⟩ ∧ u.bufferLength.val = 0 ∧
        u.totalLength = 0

/-- R127: a payload that ends with a high surrogate raises EncodingError, and so does one that begins with a low
surrogate. -/
def Obligations.SplitPairIsAnError : Prop :=
  ∀ (units : List Half) (u : Half) (s : State), s.phase = .ready →
    (isHigh u = true → ∃ t, exec (.appendText (units ++ [u])) s = .next t ∧
      t.phase = .faulted ∧ t.out = s.out ++ [.error 1]) ∧
    (isLow u = true → ∃ t, exec (.appendText (u :: units)) s = .next t ∧
      t.phase = .faulted ∧ t.out = s.out ++ [.error 1])

/-- R125: the table of ENCODE, its bit fields said as arithmetic on the values. -/
def Obligations.EncoderFollowsTheUtf8Table : Prop :=
  ∀ (u : Half) (next : Option Half),
    (u.toNat < 0x80 → encodeUnit u next = .one [BitVec.ofNat 8 u.toNat]) ∧
    (0x80 ≤ u.toNat → u.toNat < 0x800 → encodeUnit u next =
      .one [BitVec.ofNat 8 (0xC0 + u.toNat / 64), BitVec.ofNat 8 (0x80 + u.toNat % 64)]) ∧
    ((0x800 ≤ u.toNat ∧ u.toNat < 0xD800) ∨ 0xE000 ≤ u.toNat → encodeUnit u next =
      .one [BitVec.ofNat 8 (0xE0 + u.toNat / 4096), BitVec.ofNat 8 (0x80 + u.toNat / 64 % 64),
        BitVec.ofNat 8 (0x80 + u.toNat % 64)]) ∧
    (0xD800 ≤ u.toNat → u.toNat ≤ 0xDBFF →
      (next = none → encodeUnit u next = .error .highLast) ∧
      (∀ v, next = some v → v.toNat < 0xDC00 ∨ 0xDFFF < v.toNat →
        encodeUnit u next = .error .highWithoutLow) ∧
      (∀ v cp, next = some v → 0xDC00 ≤ v.toNat → v.toNat ≤ 0xDFFF →
        cp = 0x10000 + (u.toNat - 0xD800) * 0x400 + (v.toNat - 0xDC00) →
        cp ≤ 0x10FFFF ∧
        encodeUnit u next =
          .pair [BitVec.ofNat 8 (0xF0 + cp / 262144), BitVec.ofNat 8 (0x80 + cp / 4096 % 64),
            BitVec.ofNat 8 (0x80 + cp / 64 % 64), BitVec.ofNat 8 (0x80 + cp % 64)])) ∧
    (0xDC00 ≤ u.toNat → u.toNat ≤ 0xDFFF → encodeUnit u next = .error .loneLow)

/-- R125: the bytes of a unit or a pair stand for its code point, and there are 1, 2, 3 or 4 of them by its
range. -/
def Obligations.EncodedBytesStandForTheirCodePoint : Prop :=
  (∀ (u : Half) (next : Option Half) (bs : List Byte), encodeUnit u next = .one bs →
    utf8Value bs = u.toNat ∧
    bs.length = if u.toNat < 0x80 then 1 else if u.toNat < 0x800 then 2 else 3) ∧
  (∀ (u v : Half) (bs : List Byte), encodeUnit u (some v) = .pair bs →
    utf8Value bs = 0x10000 + (u.toNat - 0xD800) * 0x400 + (v.toNat - 0xDC00) ∧ bs.length = 4)

/-- R133: a text without error adds to the message length, `totalLength + bufferLength`, the number of bytes pushed,
which is 4 for a surrogate pair and 1, 2 or 3 for another character, modulo `2^64`; `totalLength` itself moves in
steps of 64. -/
def Obligations.TextLengthIsCountedInBytes : Prop :=
  (∀ (units : List Half) (bs : List Byte) (s : State),
    s.phase = .ready → encodeText units = .ok bs →
    ∃ t, exec (.appendText units) s = .next t ∧
      (t.totalLength.toNat + t.bufferLength.val) % 2 ^ 64 =
        (s.totalLength.toNat + s.bufferLength.val + bs.length) % 2 ^ 64 ∧
      ∃ drains, t.totalLength = s.totalLength + BitVec.ofNat 64 (64 * drains)) ∧
  (∀ (u v : Half) (bs : List Byte), encodeText [u, v] = .ok bs → isHigh u = true →
    bs.length = 4) ∧
  (∀ (u : Half) (bs : List Byte), encodeText [u] = .ok bs →
    bs.length = if u.toNat < 0x80 then 1 else if u.toNat < 0x800 then 2 else 3)

/-- R132: an append command with an empty payload, in READY, changes no state and answers `OK`. -/
def Obligations.EmptyAppendChangesNothing : Prop :=
  ∀ s : State, s.phase = .ready →
    exec (.appendBytes []) s = .next { s with out := s.out ++ [.ok] } ∧
    exec (.appendAscii []) s = .next { s with out := s.out ++ [.ok] } ∧
    exec (.appendText []) s = .next { s with out := s.out ++ [.ok] }

/-- R129: the chunking law: any list of append commands of the three kinds that raises no error leaves the same
context as one APPEND_BYTES of all the bytes they push; and a payload in two commands of one kind leaves the
same context as the whole payload in one: bytes and codes at any cut, a text without error at any cut that is
not inside a surrogate pair. -/
def Obligations.ChunkingDoesNotMatter : Prop :=
  ∀ s : State, s.phase = .ready →
    (∀ (cmds : List Instr) (m : List Byte), messageOf cmds = some m →
      SameAsOne cmds (.appendBytes m) s) ∧
    (∀ p q : List Byte, SameAsOne [.appendBytes p, .appendBytes q] (.appendBytes (p ++ q)) s) ∧
    (∀ p q : List Half, SameAsOne [.appendAscii p, .appendAscii q] (.appendAscii (p ++ q)) s) ∧
    (∀ (p q : List Half) (bs : List Byte), encodeText (p ++ q) = .ok bs →
      (∀ u v, p.getLast? = some u → q.head? = some v → isHigh u = true → isLow v = false) →
      SameAsOne [.appendText p, .appendText q] (.appendText (p ++ q)) s)

/-- R36: bytes at or above the cursor are never read: from two READY states that agree in the rest of the context, every
command gives the same response and, where it leaves READY, contexts that agree again. -/
def Obligations.StaleBytesAreNeverRead : Prop :=
  ∀ (i : Instr) (s s' : State), isCommand i = true → s.phase = .ready → SameContext s s' →
    ∃ t t' r, exec i s = .next t ∧ exec i s' = .next t' ∧
      t.out = s.out ++ [r] ∧ t'.out = s'.out ++ [r] ∧
      (t.phase = .ready → SameContext t t') ∧ t.phase = t'.phase

/-! ## The compressor -/

/-- R95: COMPRESS is a function of the hash state and the 64 buffer bytes to a new hash state; it writes nothing else,
the hidden registers of the compressor apart. -/
def Obligations.CompressWritesTheHashOnly : Prop :=
  ∀ s : State,
    (compress s).h = compressBytes s.h (fun j => s.buf.read j) ∧
    (∀ j, (compress s).buf.read j = s.buf.read j) ∧
    (compress s).bufferLength = s.bufferLength ∧ (compress s).totalLength = s.totalLength ∧
    (compress s).phase = s.phase ∧ (compress s).seq = s.seq ∧ (compress s).port = s.port ∧
    (compress s).out = s.out

/-- R102: LOAD copies the hash state into the working registers and writes nothing else. -/
def Obligations.LoadCopiesTheHash : Prop :=
  ∀ s : State, ∃ t, exec .load s = .next t ∧
    t.w.a = s.h.a ∧ t.w.b = s.h.b ∧ t.w.c = s.h.c ∧ t.w.d = s.h.d ∧
    t.h = s.h ∧ t.phase = s.phase ∧ t.buf = s.buf ∧ t.bufferLength = s.bufferLength ∧
    t.totalLength = s.totalLength ∧ t.i = s.i ∧ t.seq = s.seq ∧ t.port = s.port ∧ t.out = s.out

/-- R103: FEEDFORWARD adds each working register to its word of the hash state, modulo `2^32`, and writes nothing
else. -/
def Obligations.FeedforwardAddsTheEntryState : Prop :=
  ∀ s : State, ∃ t, exec .feedforward s = .next t ∧
    t.h.a.toNat = (s.h.a.toNat + s.w.a.toNat) % 2 ^ 32 ∧
    t.h.b.toNat = (s.h.b.toNat + s.w.b.toNat) % 2 ^ 32 ∧
    t.h.c.toNat = (s.h.c.toNat + s.w.c.toNat) % 2 ^ 32 ∧
    t.h.d.toNat = (s.h.d.toNat + s.w.d.toNat) % 2 ^ 32 ∧
    t.w = s.w ∧ t.phase = s.phase ∧ t.buf = s.buf ∧ t.bufferLength = s.bufferLength ∧
    t.totalLength = s.totalLength ∧ t.i = s.i ∧ t.seq = s.seq ∧ t.port = s.port ∧ t.out = s.out

/-- STEP 0 to STEP 15 with their indices (R81). -/
def Sys2Proof.Machine.stepPairs0 : List (Instr × Nat) :=
  [(.step0, 0), (.step1, 1), (.step2, 2), (.step3, 3), (.step4, 4), (.step5, 5), (.step6, 6), (.step7, 7),
   (.step8, 8), (.step9, 9), (.step10, 10), (.step11, 11), (.step12, 12), (.step13, 13), (.step14, 14), (.step15, 15)]

/-- STEP 16 to STEP 31 with their indices (R81). -/
def Sys2Proof.Machine.stepPairs1 : List (Instr × Nat) :=
  [(.step16, 16), (.step17, 17), (.step18, 18), (.step19, 19), (.step20, 20), (.step21, 21), (.step22, 22), (.step23, 23),
   (.step24, 24), (.step25, 25), (.step26, 26), (.step27, 27), (.step28, 28), (.step29, 29), (.step30, 30), (.step31, 31)]

/-- STEP 32 to STEP 47 with their indices (R81). -/
def Sys2Proof.Machine.stepPairs2 : List (Instr × Nat) :=
  [(.step32, 32), (.step33, 33), (.step34, 34), (.step35, 35), (.step36, 36), (.step37, 37), (.step38, 38), (.step39, 39),
   (.step40, 40), (.step41, 41), (.step42, 42), (.step43, 43), (.step44, 44), (.step45, 45), (.step46, 46), (.step47, 47)]

/-- STEP 48 to STEP 63 with their indices (R81). -/
def Sys2Proof.Machine.stepPairs3 : List (Instr × Nat) :=
  [(.step48, 48), (.step49, 49), (.step50, 50), (.step51, 51), (.step52, 52), (.step53, 53), (.step54, 54), (.step55, 55),
   (.step56, 56), (.step57, 57), (.step58, 58), (.step59, 59), (.step60, 60), (.step61, 61), (.step62, 62), (.step63, 63)]

/-- The function of R97 for step `i`, written out. -/
def Sys2Proof.Machine.stepFunction (i : Nat) (b c d : Word) : Word :=
  if i < 16 then (b &&& c) ||| (~~~b &&& d)
  else if i < 32 then (b &&& d) ||| (c &&& ~~~d)
  else if i < 48 then b ^^^ c ^^^ d
  else c ^^^ (b ||| ~~~d)

/-- The word index of R100 for step `i`, written out. -/
def Sys2Proof.Machine.stepWord (i : Nat) : Nat :=
  if i < 16 then i else if i < 32 then (5 * i + 1) % 16
  else if i < 48 then (3 * i + 5) % 16 else 7 * i % 16

/-- The rotation amount of R99 for step `i`, written out. -/
def Sys2Proof.Machine.stepRotation (i : Nat) : Nat :=
  ([[7, 12, 17, 22], [5, 9, 14, 20], [4, 11, 16, 23], [6, 10, 15, 21]].getD (i / 16) []).getD
    (i % 4) 0

/-- R101, R105: each of the 64 steps, whose meaning is written from its own row of the decoded table, computes what the
functions, word indices, rotation amounts and constants of R97 to R100 give for its index, and writes the four
working registers only. -/
def Obligations.EveryStepComputesItsRow : Prop :=
  ∀ p ∈ stepPairs0 ++ stepPairs1 ++ stepPairs2 ++ stepPairs3, ∀ s : State,
    ∃ t, exec p.1 s = .next t ∧
      t.w.a = s.w.d ∧ t.w.c = s.w.b ∧ t.w.d = s.w.c ∧
      t.w.b = s.w.b + rotl32 (s.w.a + stepFunction p.2 s.w.b s.w.c s.w.d +
        s.buf.word (stepWord p.2) + additive p.2) (stepRotation p.2) ∧
      t.h = s.h ∧ t.phase = s.phase ∧ t.buf = s.buf ∧ t.bufferLength = s.bufferLength ∧
      t.totalLength = s.totalLength ∧ t.i = s.i ∧ t.seq = s.seq ∧ t.port = s.port ∧
      t.out = s.out

/-- R106: the sequencer passes through its 66 states in order, whatever the data, and what it leaves is what COMPRESS run
at once leaves, in every field of the state. Two things here are the model's: that a micro-operation is one
step and a command's COMPRESS is run at once (log 15), and the equality of the hidden registers `a, b, c, d, i`,
which R32 and U13 leave at any value: both ways draw them when `C_ADD` is left, from the same number (log 5). -/
def Obligations.SequencerRunsOneCompress : Prop :=
  ∀ s : State, s.seq = .cIdle →
    (∀ n, n < 66 → ∃ t, Host.Core.run Sys2Proof.core n (startCompress s) = .next t ∧
      seqIndex t = some (if n = 0 then 0x40 else if n = 65 then 0x41 else BitVec.ofNat 7 (n - 1))) ∧
    Host.Core.run Sys2Proof.core 66 (startCompress s) = .next (compress s)

/-- R106, R57: a command leaves the sequencer and the port as they were, so the engine is in `C_IDLE` whenever a command
begins or ends. -/
def Obligations.CommandsBeginAndEndIdle : Prop :=
  (∀ (i : Instr) (s t : State), isCommand i = true → exec i s = .next t → SameSurroundings s t) ∧
  (∀ s t : State, s.seq = .cIdle → step s = .next t → t.seq = .cIdle)

/-- R108 (b): for a fixed block, one step is a bijection of the working registers. -/
def Obligations.RoundStepIsABijection : Prop :=
  ∀ (f : RoundFn) (x t : Word) (r : Nat), 4 ≤ r → r ≤ 23 →
    Function.Bijective (roundStep f x r t)

/-- R97: the four round functions, bit by bit, and the group that uses each. -/
def Obligations.RoundFunctionsBitByBit : Prop :=
  (∀ (b c d : Word) (j : Nat), j < 32 →
    (RoundFn.F.eval b c d).getLsbD j =
      (if b.getLsbD j = true then c.getLsbD j else d.getLsbD j) ∧
    (RoundFn.G.eval b c d).getLsbD j =
      (if d.getLsbD j = true then b.getLsbD j else c.getLsbD j) ∧
    (RoundFn.Hf.eval b c d).getLsbD j =
      Bool.xor (b.getLsbD j) (Bool.xor (c.getLsbD j) (d.getLsbD j)) ∧
    (RoundFn.I.eval b c d).getLsbD j =
      Bool.xor (c.getLsbD j) (b.getLsbD j || !d.getLsbD j)) ∧
  (∀ i, i < 16 → groupFn (i / 16) = .F) ∧
  (∀ i, 16 ≤ i → i < 32 → groupFn (i / 16) = .G) ∧
  (∀ i, 32 ≤ i → i < 48 → groupFn (i / 16) = .Hf) ∧
  (∀ i, 48 ≤ i → i < 64 → groupFn (i / 16) = .I)

/-- R100: the word sequences of the four groups, each of which uses every one of the sixteen words exactly once. -/
def Obligations.WordSelectionSequences : Prop :=
  (List.range 16).map wordIndex = [0, 1, 2, 3, 4, 5, 6, 7, 8, 9, 10, 11, 12, 13, 14, 15] ∧
  (List.range 16).map (fun j => wordIndex (16 + j)) =
    [1, 6, 11, 0, 5, 10, 15, 4, 9, 14, 3, 8, 13, 2, 7, 12] ∧
  (List.range 16).map (fun j => wordIndex (32 + j)) =
    [5, 8, 11, 14, 1, 4, 7, 10, 13, 0, 3, 6, 9, 12, 15, 2] ∧
  (List.range 16).map (fun j => wordIndex (48 + j)) =
    [0, 7, 14, 5, 12, 3, 10, 1, 8, 15, 6, 13, 4, 11, 2, 9] ∧
  ∀ g, g < 4 → ∀ k, k < 16 → ∃ j, j < 16 ∧ wordIndex (16 * g + j) = k ∧
    ∀ j', j' < 16 → wordIndex (16 * g + j') = k → j' = j

/-- R8: addition is modulo `2^32`, complement is `0xFFFFFFFF - x`, and, or and exclusive or are bit by bit, and the rotation
brings the `s` high bits back in as the `s` low bits. -/
def Obligations.WordArithmeticWraps : Prop :=
  ∀ x y : Word,
    (x + y).toNat = (x.toNat + y.toNat) % 2 ^ 32 ∧
    (~~~x).toNat = 0xFFFFFFFF - x.toNat ∧
    (∀ j, (x &&& y).getLsbD j = (x.getLsbD j && y.getLsbD j) ∧
      (x ||| y).getLsbD j = (x.getLsbD j || y.getLsbD j) ∧
      (x ^^^ y).getLsbD j = Bool.xor (x.getLsbD j) (y.getLsbD j)) ∧
    ∀ s, 1 ≤ s → s ≤ 31 →
      (rotl32 x s).toNat = x.toNat * 2 ^ s % 2 ^ 32 + x.toNat / 2 ^ (32 - s)

/-! ## FINALIZE and the digest -/

/-- R140, R141: FINALIZE in READY answers the digest of the one or two padded blocks, in the form `raw` asks for, and
leaves phase SPENT; it is refused in any other phase. The context in SPENT is a free value (R146, log 4) and no
clause speaks of it. -/
def Obligations.FinalizeAnswersTheDigest : Prop :=
  decodeHeader 0x00000004 = .ok (.finalize false) ∧ decodeHeader 0x00000014 = .ok (.finalize true) ∧
  ∀ (raw : Bool) (s : State),
    (s.phase ≠ .ready → exec (.finalize raw) s = .refused (.wrongPhase s.phase)) ∧
    (s.phase = .ready → ∃ t, exec (.finalize raw) s = .next t ∧ t.phase = .spent ∧
      t.out = s.out ++
        [if raw then .digestRaw (finalDigest s) else .digestHex (hexDigest (finalDigest s))] ∧
      t.seq = s.seq ∧ t.port = s.port)

/-- R142, R52: the bit length is exact modulo `2^64`; its low word is `L[28:0] << 3`, its high word `L[60:29]`; it stands in
bytes 56 to 63, the low word first, each word least significant byte first, and no other byte changes. -/
def Obligations.LengthFieldIsExact : Prop :=
  ∀ (len : Count) (s : State),
    (bitLength len).toNat = len.toNat * 8 % 2 ^ 64 ∧
    (bitLength len).extractLsb' 0 32 = len.extractLsb' 0 29 ++ (0 : BitVec 3) ∧
    (bitLength len).extractLsb' 32 32 = len.extractLsb' 29 32 ∧
    ((bitLength len).extractLsb' 0 32).toNat = len.toNat % 2 ^ 32 * 8 % 2 ^ 32 ∧
    ((bitLength len).extractLsb' 32 32).toNat =
      (len.toNat / 2 ^ 32 * 8 + len.toNat % 2 ^ 32 / 2 ^ 29) % 2 ^ 32 ∧
    (∀ j, j < 8 → (writeLength (bitLength len) s).buf.read (56 + j) =
      (bitLength len).extractLsb' (8 * j) 8) ∧
    (∀ j, j < 56 → (writeLength (bitLength len) s).buf.read j = s.buf.read j)

/-- The characters `0123456789abcdef` in ASCII. -/
def Sys2Proof.Machine.hexAlphabet : List Byte :=
  [0x30, 0x31, 0x32, 0x33, 0x34, 0x35, 0x36, 0x37, 0x38, 0x39, 0x61, 0x62, 0x63, 0x64, 0x65, 0x66]

/-- R144: the hex digest has 32 characters from `0123456789abcdef`; character `8*k + 2*m` is the high nibble of byte `m` of
word `k`, and the one after it the low nibble. -/
def Obligations.HexDigestOrder : Prop :=
  ∀ (q : ABCD) (k m : Nat), k < 4 → m < 4 →
    (hexDigest q).length = 32 ∧
    (hexDigest q).getD (8 * k + 2 * m) 0 =
      hexAlphabet.getD (([q.a, q.b, q.c, q.d].getD k 0).toNat / 2 ^ (8 * m + 4) % 16) 0 ∧
    (hexDigest q).getD (8 * k + 2 * m + 1) 0 =
      hexAlphabet.getD (([q.a, q.b, q.c, q.d].getD k 0).toNat / 2 ^ (8 * m) % 16) 0

/-- R78: every command that is executed gives exactly one response, of the kind the table gives it, and a response is its
status word and its data: four words after `DIGEST_RAW`, the characters after `DIGEST_HEX`, and nothing else. -/
def Obligations.OneResponsePerCommand : Prop :=
  (∀ (i : Instr) (s t : State), isCommand i = true → exec i s = .next t →
    ∃ r, t.out = s.out ++ [r] ∧
      match i with
      | .appendText _ => (t.phase = .ready ∧ r = .ok) ∨ (t.phase = .faulted ∧ r = .error 1)
      | .finalize true => ∃ q, r = .digestRaw q
      | .finalize false => ∃ cs, r = .digestHex cs ∧ cs.length = 32
      | _ => r = .ok) ∧
  (∀ (q : ABCD) (cs : List Byte) (e : Byte),
    Response.ok.statusWord = 0 ∧ (Response.digestRaw q).statusWord = 1 ∧
    (Response.digestHex cs).statusWord = 2 ∧
    (Response.error e).statusWord.toNat = 3 + 4 * e.toNat ∧
    (Response.digestRaw q).dataWords = [q.a, q.b, q.c, q.d] ∧
    (Response.digestHex cs).dataBytes = cs ∧
    Response.ok.dataWords = [] ∧ Response.ok.dataBytes = [] ∧
    (Response.error e).dataWords = [] ∧ (Response.error e).dataBytes = [] ∧
    (Response.digestRaw q).dataBytes = [] ∧ (Response.digestHex cs).dataWords = [])

/-- R40: a response, once given, is not changed by any later step. -/
def Obligations.ResponsesAreNeverChanged : Prop :=
  ∀ s t : State, step s = .next t → s.out <+: t.out

/-- R28: in READY the engine holds the message: RESET makes it empty, and every append command that raises no error adds
the bytes it pushes. (`Holds` says what the four registers and the residual bytes are for a message.) -/
def Obligations.EngineHoldsTheMessage : Prop :=
  (∀ s : State, ∃ t, exec .reset s = .next t ∧ Holds [] t) ∧
  (∀ (i : Instr) (m p : List Byte) (s : State), Holds m s → pushedBytes i = some p →
    ∃ t, exec i s = .next t ∧ Holds (m ++ p) t)

/-- R147: the digest law: from any state, RESET, append commands of any kind and chunking that push the message `M`, and
FINALIZE answer `MD5(M)`. -/
def Obligations.DigestLaw : Prop :=
  ∀ (s : State) (cmds : List Instr) (m : List Byte) (raw : Bool), messageOf cmds = some m →
    ∃ t, execAll (.reset :: cmds ++ [.finalize raw]) s = .next t ∧
      t.phase = .spent ∧
      t.out = s.out ++ List.replicate (cmds.length + 1) .ok ++
        [if raw then .digestRaw (md5 m) else .digestHex (hexDigest (md5 m))]

/-- R145: the padded message has `(L + 8) div 64 + 1` blocks, it begins with the message and the byte `0x80`, and its last
eight bytes are the bit length. -/
def Obligations.PaddedMessageBlocks : Prop :=
  ∀ m : List Byte,
    (paddedMessage m).length = 64 * ((m.length + 8) / 64 + 1) ∧
    m ++ [0x80] <+: paddedMessage m ∧ lengthField (8 * m.length) <:+ paddedMessage m

/-- The three digests of the source (spec/95_test_vectors.md section 1, S1 to S3), as raw words: of the empty message, of
"hello" and of "abc". -/
def Obligations.SourceDigests : Prop :=
  md5 [] = ⟨0xD98C1DD4, 0x04B2008F, 0x980980E9, 0x7E42F8EC⟩ ∧
  md5 [0x68, 0x65, 0x6C, 0x6C, 0x6F] = ⟨0x2A40415D, 0x762A4BBC, 0x919D71B9, 0x92C51710⟩ ∧
  md5 [0x61, 0x62, 0x63] = ⟨0x98500190, 0xB04FD23C, 0x7D3F96D6, 0x727FE128⟩

/-- R155, R75, R190: the commands a one-shot text is sent in: their payloads are the text, cut; each fits its
header; a text that fits one header is one command, the empty text too; and in no text, one with lone
surrogates too, is a cut inside a surrogate pair: of two consecutive payloads, neither empty, the second does
not begin with a low surrogate where the first ends with a high one, so the text has no lone surrogate
exactly when no payload has one. Where the cuts of a longer text fall is the model's choice (log 21). -/
def Obligations.LongTextIsCutIntoCommands : Prop :=
  (∀ units : List Half,
    (textPieces payloadMax units).flatten = units ∧
    textCommands units = (textPieces payloadMax units).map .appendText ∧
    (∀ i ∈ textCommands units, i.wf = true) ∧
    (units.length ≤ 2 ^ 24 - 1 → textCommands units = [.appendText units]) ∧
    (∀ before p q later, textPieces payloadMax units = before ++ p :: q :: later →
      p ≠ [] ∧ q ≠ [] ∧
      ∀ u v, p.getLast? = some u → q.head? = some v → isHigh u = true → isLow v = false) ∧
    (wellPaired units = true ↔ ∀ p ∈ textPieces payloadMax units, wellPaired p = true)) ∧
  (∀ chars : List Half,
    (asciiPieces payloadMax chars).flatten = chars ∧
    asciiCommands chars = (asciiPieces payloadMax chars).map .appendAscii ∧
    (∀ i ∈ asciiCommands chars, i.wf = true) ∧
    (chars.length ≤ 2 ^ 24 - 1 → asciiCommands chars = [.appendAscii chars]))

/-- R155: `HASH text` from any state: RESET, one APPEND_TEXT, or several above `2^24 - 1` units, and FINALIZE: an `OK` for
each but the last, and the digest of the text's UTF-8 bytes. Where a payload is in error, the `ERROR` response is
the last: the later payloads and FINALIZE are not issued and the engine is left FAULTED. How many commands a
longer text takes is the model's choice (log 21). -/
def Obligations.HashPseudoCommand : Prop :=
  ∀ (units : List Half) (raw : Bool) (s : State),
    (∀ bs, encodeText units = .ok bs → ∃ t, hashText units raw s = .next t ∧
      t.phase = .spent ∧
      t.out = s.out ++ List.replicate ((textCommands units).length + 1) .ok ++
        [if raw then .digestRaw (md5 bs) else .digestHex (hexDigest (md5 bs))]) ∧
    (∀ c, encodeText units = .error c → ∃ t before bad later c', hashText units raw s = .next t ∧
      textPieces payloadMax units = before ++ bad :: later ∧
      (∀ p ∈ before, ∃ bs, encodeText p = .ok bs) ∧ encodeText bad = .error c' ∧
      t.phase = .faulted ∧
      t.out = s.out ++ List.replicate (before.length + 1) .ok ++ [.error 1])

/-- R156: `HASH_ASCII text` from any state cannot fail and gives the digest of the codes' low bytes; for codes below `0x80`
it answers as `HASH` does. How many commands a text above `2^24 - 1` codes takes is the model's choice (log 21). -/
def Obligations.HashAsciiPseudoCommand : Prop :=
  ∀ (chars : List Half) (raw : Bool) (s : State),
    ∃ t, hashAscii chars raw s = .next t ∧
      t.out = s.out ++ List.replicate ((asciiCommands chars).length + 1) .ok ++
        [if raw then .digestRaw (md5 (chars.map fun c => BitVec.ofNat 8 (c.toNat % 256)))
        else .digestHex (hexDigest (md5 (chars.map fun c => BitVec.ofNat 8 (c.toNat % 256))))] ∧
      ((∀ c ∈ chars, c.toNat < 0x80) → hashText chars raw s = hashAscii chars raw s)

/-! ## Invariants of the state -/

/-- The invariant holds at power-on; that the buffer lists nothing there is the model's choice (log 2). -/
def Obligations.InvariantHoldsAtPowerOn : Prop := State.reset.Inv

/-- R28, R106: every step keeps the invariant: the buffer in canonical form (log 2), the counter a multiple of 64 in READY,
and a step index that names a step in `C_STEP`. -/
def Obligations.EveryStepKeepsTheInvariant : Prop :=
  ∀ s t : State, s.Inv → step s = .next t → t.Inv

/-- Two buffers in canonical form that agree at the 64 offsets are equal (log 2). -/
def Obligations.CanonicalBuffersAreEqual : Prop :=
  ∀ m m' : Memory, m.wf → m'.wf → (∀ j, j < 64 → m.read j = m'.read j) → m = m'

/-- R54, R25: one array, two views, little-endian: the byte at offset `4k + o` is bits `8o+7:8o` of `X[k]`, and a byte written
there is seen in that field of that word and in no other. -/
def Obligations.WordViewIsLittleEndian : Prop :=
  ∀ (m : Memory) (k o : Nat) (v : Byte), k < 16 → o < 4 →
    (m.word k).extractLsb' (8 * o) 8 = m.read (4 * k + o) ∧
    ((m.write (4 * k + o) v).word k).extractLsb' (8 * o) 8 = v ∧
    (∀ o', o' < 4 → o' ≠ o → ((m.write (4 * k + o) v).word k).extractLsb' (8 * o') 8 =
      (m.word k).extractLsb' (8 * o') 8) ∧
    (∀ k', k' ≠ k → (m.write (4 * k + o) v).word k' = m.word k')
end

