-- ==== Sys2Proof/Laws/Memory.lean ====
section
/-! SUPPORT. The laws of the buffer: what a read gives after each write, and that every write keeps the
canonical form. -/

namespace Sys2Proof.Machine

/-! ## Reads -/

@[simp] theorem Memory.read_nil (j : Nat) : Memory.read [] j = 0 := rfl

theorem Memory.read_erase (m : Memory) (j k : Nat) :
    (m.erase j).read k = if k = j then 0 else m.read k := by
  induction m with
  | nil => simp [Memory.erase, Memory.read]
  | cons c m ih =>
    obtain ⟨a, v⟩ := c
    by_cases ha : a = j <;> by_cases hk : a = k <;>
      simp_all [Memory.erase, Memory.read, eq_comm]

theorem Memory.read_insert_self (m : Memory) (j : Nat) (v : Byte) (h : ∀ c ∈ m, c.1 ≠ j) :
    (m.insert j v).read j = v := by
  induction m with
  | nil => simp [Memory.insert, Memory.read]
  | cons c m ih =>
    obtain ⟨a, x⟩ := c
    have ha : a ≠ j := h (a, x) (by simp)
    by_cases hj : j < a
    · simp [Memory.insert, Memory.read, hj]
    · simp [Memory.insert, Memory.read, hj, ha, ih fun c hc => h c (by simp [hc])]

theorem Memory.read_insert_other (m : Memory) (j k : Nat) (v : Byte) (h : k ≠ j) :
    (m.insert j v).read k = m.read k := by
  induction m with
  | nil => simp [Memory.insert, Memory.read, Ne.symm h]
  | cons c m ih =>
    obtain ⟨a, x⟩ := c
    by_cases hj : j < a <;> simp [Memory.insert, Memory.read, hj, ih, Ne.symm h]

theorem Memory.erase_ne (m : Memory) (j : Nat) : ∀ c ∈ m.erase j, c.1 ≠ j := by
  induction m with
  | nil => simp [Memory.erase]
  | cons c m ih =>
    obtain ⟨a, x⟩ := c
    by_cases ha : a = j
    · simpa [Memory.erase, ha] using ih
    · simpa [Memory.erase, ha] using ih

/-- A read after a write: the written byte at its offset, the old byte at any other; of every memory, in
canonical form or not. -/
theorem Memory.read_write (m : Memory) (j k : Nat) (v : Byte) :
    (m.write j v).read k = if k = j then v else m.read k := by
  unfold Memory.write
  split
  · simp_all [Memory.read_erase]
  · by_cases hk : k = j
    · subst hk
      simpa using Memory.read_insert_self _ _ _ (Memory.erase_ne m k)
    · simp [Memory.read_insert_other _ _ _ _ hk, Memory.read_erase, hk]

theorem Memory.read_fill (m : Memory) (f : Nat → Byte) (start n k : Nat) :
    (m.fill f start n).read k = if start ≤ k ∧ k < start + n then f k else m.read k := by
  induction n generalizing m start with
  | zero => simp [Memory.fill]
  | succ n ih =>
    rw [Memory.fill, ih, Memory.read_write]
    by_cases h1 : k = start
    · subst h1; simp
    · by_cases h2 : start + 1 ≤ k ∧ k < start + 1 + n
      · rw [if_pos h2, if_pos ⟨by omega, by omega⟩]
      · rw [if_neg h2, if_neg h1, if_neg (by omega)]

theorem Memory.read_zeroFrom (m : Memory) (start k : Nat) (hk : k < 64) :
    (m.zeroFrom start).read k = if start ≤ k then 0 else m.read k := by
  rw [Memory.zeroFrom, Memory.read_fill]
  by_cases h : start ≤ k
  · rw [if_pos ⟨h, by omega⟩, if_pos h]
  · rw [if_neg (by omega), if_neg h]

theorem Memory.read_writeLE (m : Memory) (addr n v k : Nat) :
    (m.writeLE addr n v).read k =
      if addr ≤ k ∧ k < addr + n then BitVec.ofNat 8 (v / 2 ^ (8 * (k - addr))) else m.read k := by
  induction n generalizing m addr v with
  | zero => simp [Memory.writeLE]
  | succ n ih =>
    rw [Memory.writeLE, ih, Memory.read_write]
    by_cases h1 : k = addr
    · subst h1; simp
    · by_cases h2 : addr + 1 ≤ k ∧ k < addr + 1 + n
      · rw [if_pos h2, if_pos ⟨by omega, by omega⟩, Nat.div_div_eq_div_mul, ← Nat.pow_add]
        congr 3; omega
      · rw [if_neg h2, if_neg h1, if_neg (by omega)]

/-- R51: a word is its four bytes, the lowest offset least significant. -/
theorem Memory.word_eq (m : Memory) (k : Nat) :
    m.word k = m.read (4 * k + 3) ++ m.read (4 * k + 2) ++ m.read (4 * k + 1) ++ m.read (4 * k) := by
  have h0 := (m.read (4 * k)).isLt
  have h1 := (m.read (4 * k + 1)).isLt
  have h2 := (m.read (4 * k + 2)).isLt
  have h3 := (m.read (4 * k + 3)).isLt
  apply BitVec.eq_of_toNat_eq
  simp only [Memory.word, Memory.readLE, BitVec.toNat_ofNat, BitVec.toNat_append]
  rw [← Nat.shiftLeft_add_eq_or_of_lt h0, ← Nat.shiftLeft_add_eq_or_of_lt h1,
    ← Nat.shiftLeft_add_eq_or_of_lt h2]
  simp only [Nat.shiftLeft_eq]
  have e : 4 * k + 1 + 1 = 4 * k + 2 := by omega
  have e' : 4 * k + 2 + 1 = 4 * k + 3 := by omega
  rw [e, e']
  omega

/-! ## The canonical form -/

theorem Memory.mem_erase {m : Memory} {j : Nat} {c : Host.Cell} (h : c ∈ m.erase j) :
    c ∈ m := by
  induction m with
  | nil => simp [Memory.erase] at h
  | cons d m ih =>
    obtain ⟨a, x⟩ := d
    by_cases ha : a = j
    · simp only [Memory.erase, ha, if_true] at h
      exact List.mem_cons_of_mem _ (ih h)
    · simp only [Memory.erase, ha, if_false, List.mem_cons] at h ⊢
      exact h.imp id ih

theorem Memory.wf_erase {m : Memory} (h : m.wf) (j : Nat) : (m.erase j).wf := by
  refine ⟨?_, fun c hc => h.2 c (Memory.mem_erase hc)⟩
  obtain ⟨h, -⟩ := h
  induction m with
  | nil => simp [Memory.erase]
  | cons d m ih =>
    obtain ⟨a, x⟩ := d
    rw [List.pairwise_cons] at h
    by_cases ha : a = j
    · simpa [Memory.erase, ha] using ih h.2
    · simp only [Memory.erase, ha, if_false, List.pairwise_cons]
      exact ⟨fun c hc => h.1 c (Memory.mem_erase hc), ih h.2⟩

theorem Memory.mem_insert {m : Memory} {j : Nat} {v : Byte} {c : Host.Cell}
    (h : c ∈ m.insert j v) : c = (j, v) ∨ c ∈ m := by
  induction m with
  | nil => simpa [Memory.insert] using h
  | cons d m ih =>
    obtain ⟨a, x⟩ := d
    by_cases ha : j < a
    · simpa [Memory.insert, ha] using h
    · simp only [Memory.insert, ha, if_false, List.mem_cons] at h ⊢
      rcases h with h | h
      · exact .inr (.inl h)
      · exact (ih h).imp id .inr

theorem Memory.wf_insert {m : Memory} (h : m.wf) {j : Nat} {v : Byte} (hj : j < 64) (hv : v ≠ 0)
    (hne : ∀ c ∈ m, c.1 ≠ j) : (m.insert j v).wf := by
  refine ⟨?_, fun c hc => (Memory.mem_insert hc).elim (fun e => e ▸ ⟨hj, hv⟩) (h.2 c)⟩
  obtain ⟨h, -⟩ := h
  induction m with
  | nil => simp [Memory.insert]
  | cons d m ih =>
    obtain ⟨a, x⟩ := d
    have ha : a ≠ j := hne (a, x) (by simp)
    rw [List.pairwise_cons] at h
    by_cases hlt : j < a
    · simp only [Memory.insert, hlt, if_true, List.pairwise_cons]
      refine ⟨fun c hc => ?_, h.1, h.2⟩
      rcases List.mem_cons.1 hc with rfl | hc
      · exact hlt
      · exact Nat.lt_trans hlt (h.1 c hc)
    · simp only [Memory.insert, hlt, if_false, List.pairwise_cons]
      refine ⟨fun c hc => ?_, ih (fun c hc => hne c (by simp [hc])) h.2⟩
      rcases Memory.mem_insert hc with rfl | hc
      · have : a < j := by omega
        exact this
      · exact h.1 c hc

theorem Memory.wf_write {m : Memory} (h : m.wf) {j : Nat} (hj : j < 64) (v : Byte) :
    (m.write j v).wf := by
  unfold Memory.write
  split
  · exact Memory.wf_erase h j
  · exact Memory.wf_insert (Memory.wf_erase h j) hj ‹_› (Memory.erase_ne m j)

theorem Memory.wf_fill {m : Memory} (h : m.wf) (f : Nat → Byte) {start n : Nat}
    (hn : start + n ≤ 64) : (m.fill f start n).wf := by
  induction n generalizing m start with
  | zero => exact h
  | succ n ih => exact ih (Memory.wf_write h (by omega) _) (by omega)

theorem Memory.wf_zeroFrom {m : Memory} (h : m.wf) {start : Nat} (hs : start ≤ 64) :
    (m.zeroFrom start).wf := Memory.wf_fill h _ (by omega)

theorem Memory.wf_writeLE {m : Memory} (h : m.wf) {addr n : Nat} (v : Nat)
    (hn : addr + n ≤ 64) : (m.writeLE addr n v).wf := by
  induction n generalizing m addr v with
  | zero => exact h
  | succ n ih => exact ih (Memory.wf_write h (by omega) _) _ (by omega)

theorem Memory.wf_nil : Memory.wf [] := ⟨List.Pairwise.nil, by simp⟩

end Sys2Proof.Machine
end

