-- ==== Sys2Proof/Laws/State.lean ====
section
/-! SUPPORT. What each named update leaves in each field of the state, so that no later proof unfolds a record
update. Each is true by `rfl`; it is written `id rfl` so that `simp` rewrites with it as an equation and does not
ask the kernel whether two whole states agree, which would make it unroll the 64 steps of a COMPRESS. -/

namespace Sys2Proof.Machine

/-! ## `opLoad` -/

@[simp] theorem opLoad_phase (s : State) : (opLoad s).phase = s.phase := id rfl
@[simp] theorem opLoad_h (s : State) : (opLoad s).h = s.h := id rfl
@[simp] theorem opLoad_buf (s : State) : (opLoad s).buf = s.buf := id rfl
@[simp] theorem opLoad_bufferLength (s : State) : (opLoad s).bufferLength = s.bufferLength := id rfl
@[simp] theorem opLoad_totalLength (s : State) : (opLoad s).totalLength = s.totalLength := id rfl
@[simp] theorem opLoad_w (s : State) : (opLoad s).w = s.h := id rfl
@[simp] theorem opLoad_i (s : State) : (opLoad s).i = s.i := id rfl
@[simp] theorem opLoad_seq (s : State) : (opLoad s).seq = s.seq := id rfl
@[simp] theorem opLoad_port (s : State) : (opLoad s).port = s.port := id rfl
@[simp] theorem opLoad_out (s : State) : (opLoad s).out = s.out := id rfl
@[simp] theorem opLoad_draws (s : State) : (opLoad s).draws = s.draws := id rfl

/-! ## `opStep` -/

@[simp] theorem opStep_phase (f : RoundFn) (k r : Nat) (t : Word) (s : State) : (opStep f k r t s).phase = s.phase := id rfl
@[simp] theorem opStep_h (f : RoundFn) (k r : Nat) (t : Word) (s : State) : (opStep f k r t s).h = s.h := id rfl
@[simp] theorem opStep_buf (f : RoundFn) (k r : Nat) (t : Word) (s : State) : (opStep f k r t s).buf = s.buf := id rfl
@[simp] theorem opStep_bufferLength (f : RoundFn) (k r : Nat) (t : Word) (s : State) : (opStep f k r t s).bufferLength = s.bufferLength := id rfl
@[simp] theorem opStep_totalLength (f : RoundFn) (k r : Nat) (t : Word) (s : State) : (opStep f k r t s).totalLength = s.totalLength := id rfl
@[simp] theorem opStep_w (f : RoundFn) (k r : Nat) (t : Word) (s : State) : (opStep f k r t s).w = roundStep f (s.buf.word k) r t s.w := id rfl
@[simp] theorem opStep_i (f : RoundFn) (k r : Nat) (t : Word) (s : State) : (opStep f k r t s).i = s.i := id rfl
@[simp] theorem opStep_seq (f : RoundFn) (k r : Nat) (t : Word) (s : State) : (opStep f k r t s).seq = s.seq := id rfl
@[simp] theorem opStep_port (f : RoundFn) (k r : Nat) (t : Word) (s : State) : (opStep f k r t s).port = s.port := id rfl
@[simp] theorem opStep_out (f : RoundFn) (k r : Nat) (t : Word) (s : State) : (opStep f k r t s).out = s.out := id rfl
@[simp] theorem opStep_draws (f : RoundFn) (k r : Nat) (t : Word) (s : State) : (opStep f k r t s).draws = s.draws := id rfl

/-! ## `opFeedForward` -/

@[simp] theorem opFeedForward_phase (s : State) : (opFeedForward s).phase = s.phase := id rfl
@[simp] theorem opFeedForward_h (s : State) : (opFeedForward s).h = s.h.add s.w := id rfl
@[simp] theorem opFeedForward_buf (s : State) : (opFeedForward s).buf = s.buf := id rfl
@[simp] theorem opFeedForward_bufferLength (s : State) : (opFeedForward s).bufferLength = s.bufferLength := id rfl
@[simp] theorem opFeedForward_totalLength (s : State) : (opFeedForward s).totalLength = s.totalLength := id rfl
@[simp] theorem opFeedForward_w (s : State) : (opFeedForward s).w = s.w := id rfl
@[simp] theorem opFeedForward_i (s : State) : (opFeedForward s).i = s.i := id rfl
@[simp] theorem opFeedForward_seq (s : State) : (opFeedForward s).seq = s.seq := id rfl
@[simp] theorem opFeedForward_port (s : State) : (opFeedForward s).port = s.port := id rfl
@[simp] theorem opFeedForward_out (s : State) : (opFeedForward s).out = s.out := id rfl
@[simp] theorem opFeedForward_draws (s : State) : (opFeedForward s).draws = s.draws := id rfl

/-! ## `tableStep` -/

@[simp] theorem tableStep_phase (n : Nat) (s : State) : (tableStep n s).phase = s.phase := id rfl
@[simp] theorem tableStep_h (n : Nat) (s : State) : (tableStep n s).h = s.h := id rfl
@[simp] theorem tableStep_buf (n : Nat) (s : State) : (tableStep n s).buf = s.buf := id rfl
@[simp] theorem tableStep_bufferLength (n : Nat) (s : State) : (tableStep n s).bufferLength = s.bufferLength := id rfl
@[simp] theorem tableStep_totalLength (n : Nat) (s : State) : (tableStep n s).totalLength = s.totalLength := id rfl
@[simp] theorem tableStep_w (n : Nat) (s : State) : (tableStep n s).w = roundStep (groupFn (n / 16)) (s.buf.word (wordIndex n)) (rotation n) (additive n) s.w := id rfl
@[simp] theorem tableStep_i (n : Nat) (s : State) : (tableStep n s).i = s.i := id rfl
@[simp] theorem tableStep_seq (n : Nat) (s : State) : (tableStep n s).seq = s.seq := id rfl
@[simp] theorem tableStep_port (n : Nat) (s : State) : (tableStep n s).port = s.port := id rfl
@[simp] theorem tableStep_out (n : Nat) (s : State) : (tableStep n s).out = s.out := id rfl
@[simp] theorem tableStep_draws (n : Nat) (s : State) : (tableStep n s).draws = s.draws := id rfl

/-! ## `dropWorking` -/

@[simp] theorem dropWorking_phase (s : State) : (dropWorking s).phase = s.phase := id rfl
@[simp] theorem dropWorking_h (s : State) : (dropWorking s).h = s.h := id rfl
@[simp] theorem dropWorking_buf (s : State) : (dropWorking s).buf = s.buf := id rfl
@[simp] theorem dropWorking_bufferLength (s : State) : (dropWorking s).bufferLength = s.bufferLength := id rfl
@[simp] theorem dropWorking_totalLength (s : State) : (dropWorking s).totalLength = s.totalLength := id rfl
@[simp] theorem dropWorking_i (s : State) : (dropWorking s).i = Config.freeIndex s.draws := id rfl
@[simp] theorem dropWorking_seq (s : State) : (dropWorking s).seq = s.seq := id rfl
@[simp] theorem dropWorking_port (s : State) : (dropWorking s).port = s.port := id rfl
@[simp] theorem dropWorking_out (s : State) : (dropWorking s).out = s.out := id rfl
@[simp] theorem dropWorking_draws (s : State) : (dropWorking s).draws = s.draws + 1 := id rfl

/-! ## `dropContext` -/

@[simp] theorem dropContext_phase (s : State) : (dropContext s).phase = s.phase := id rfl
@[simp] theorem dropContext_buf (s : State) : (dropContext s).buf = Memory.fill [] (Config.freeByte s.draws) 0 64 := id rfl
@[simp] theorem dropContext_bufferLength (s : State) : (dropContext s).bufferLength = Config.freeCursor s.draws := id rfl
@[simp] theorem dropContext_totalLength (s : State) : (dropContext s).totalLength = Config.freeCount s.draws := id rfl
@[simp] theorem dropContext_w (s : State) : (dropContext s).w = s.w := id rfl
@[simp] theorem dropContext_i (s : State) : (dropContext s).i = s.i := id rfl
@[simp] theorem dropContext_seq (s : State) : (dropContext s).seq = s.seq := id rfl
@[simp] theorem dropContext_port (s : State) : (dropContext s).port = s.port := id rfl
@[simp] theorem dropContext_out (s : State) : (dropContext s).out = s.out := id rfl
@[simp] theorem dropContext_draws (s : State) : (dropContext s).draws = s.draws + 1 := id rfl

/-! ## `freshContext` -/

@[simp] theorem freshContext_phase (s : State) : (freshContext s).phase = .ready := id rfl
@[simp] theorem freshContext_h (s : State) : (freshContext s).h = ivHash := id rfl
@[simp] theorem freshContext_buf (s : State) : (freshContext s).buf = s.buf := id rfl
@[simp] theorem freshContext_bufferLength (s : State) : (freshContext s).bufferLength = 0 := id rfl
@[simp] theorem freshContext_totalLength (s : State) : (freshContext s).totalLength = 0 := id rfl
@[simp] theorem freshContext_w (s : State) : (freshContext s).w = s.w := id rfl
@[simp] theorem freshContext_i (s : State) : (freshContext s).i = s.i := id rfl
@[simp] theorem freshContext_seq (s : State) : (freshContext s).seq = s.seq := id rfl
@[simp] theorem freshContext_port (s : State) : (freshContext s).port = s.port := id rfl
@[simp] theorem freshContext_out (s : State) : (freshContext s).out = s.out := id rfl
@[simp] theorem freshContext_draws (s : State) : (freshContext s).draws = s.draws := id rfl

/-! ## `respond` -/

@[simp] theorem respond_phase (r : Response) (s : State) : (respond r s).phase = s.phase := id rfl
@[simp] theorem respond_h (r : Response) (s : State) : (respond r s).h = s.h := id rfl
@[simp] theorem respond_buf (r : Response) (s : State) : (respond r s).buf = s.buf := id rfl
@[simp] theorem respond_bufferLength (r : Response) (s : State) : (respond r s).bufferLength = s.bufferLength := id rfl
@[simp] theorem respond_totalLength (r : Response) (s : State) : (respond r s).totalLength = s.totalLength := id rfl
@[simp] theorem respond_w (r : Response) (s : State) : (respond r s).w = s.w := id rfl
@[simp] theorem respond_i (r : Response) (s : State) : (respond r s).i = s.i := id rfl
@[simp] theorem respond_seq (r : Response) (s : State) : (respond r s).seq = s.seq := id rfl
@[simp] theorem respond_port (r : Response) (s : State) : (respond r s).port = s.port := id rfl
@[simp] theorem respond_out (r : Response) (s : State) : (respond r s).out = s.out ++ [r] := id rfl
@[simp] theorem respond_draws (r : Response) (s : State) : (respond r s).draws = s.draws := id rfl

/-! ## `startCompress` -/

@[simp] theorem startCompress_phase (s : State) : (startCompress s).phase = s.phase := id rfl
@[simp] theorem startCompress_h (s : State) : (startCompress s).h = s.h := id rfl
@[simp] theorem startCompress_buf (s : State) : (startCompress s).buf = s.buf := id rfl
@[simp] theorem startCompress_bufferLength (s : State) : (startCompress s).bufferLength = s.bufferLength := id rfl
@[simp] theorem startCompress_totalLength (s : State) : (startCompress s).totalLength = s.totalLength := id rfl
@[simp] theorem startCompress_w (s : State) : (startCompress s).w = s.w := id rfl
@[simp] theorem startCompress_i (s : State) : (startCompress s).i = s.i := id rfl
@[simp] theorem startCompress_seq (s : State) : (startCompress s).seq = .cLoad := id rfl
@[simp] theorem startCompress_port (s : State) : (startCompress s).port = s.port := id rfl
@[simp] theorem startCompress_out (s : State) : (startCompress s).out = s.out := id rfl
@[simp] theorem startCompress_draws (s : State) : (startCompress s).draws = s.draws := id rfl

/-! ## `padBlock` -/

@[simp] theorem padBlock_phase (s : State) : (padBlock s).phase = s.phase := id rfl
@[simp] theorem padBlock_h (s : State) : (padBlock s).h = s.h := id rfl
@[simp] theorem padBlock_buf (s : State) : (padBlock s).buf = (s.buf.write s.bufferLength.val 0x80).zeroFrom (s.bufferLength.val + 1) := id rfl
@[simp] theorem padBlock_bufferLength (s : State) : (padBlock s).bufferLength = s.bufferLength := id rfl
@[simp] theorem padBlock_totalLength (s : State) : (padBlock s).totalLength = s.totalLength := id rfl
@[simp] theorem padBlock_w (s : State) : (padBlock s).w = s.w := id rfl
@[simp] theorem padBlock_i (s : State) : (padBlock s).i = s.i := id rfl
@[simp] theorem padBlock_seq (s : State) : (padBlock s).seq = s.seq := id rfl
@[simp] theorem padBlock_port (s : State) : (padBlock s).port = s.port := id rfl
@[simp] theorem padBlock_out (s : State) : (padBlock s).out = s.out := id rfl
@[simp] theorem padBlock_draws (s : State) : (padBlock s).draws = s.draws := id rfl

/-! ## `writeLength` -/

@[simp] theorem writeLength_phase (bits : Count) (s : State) : (writeLength bits s).phase = s.phase := id rfl
@[simp] theorem writeLength_h (bits : Count) (s : State) : (writeLength bits s).h = s.h := id rfl
@[simp] theorem writeLength_buf (bits : Count) (s : State) : (writeLength bits s).buf = (s.buf.writeLE 56 4 (bits.extractLsb' 0 32).toNat).writeLE 60 4
      (bits.extractLsb' 32 32).toNat := id rfl
@[simp] theorem writeLength_bufferLength (bits : Count) (s : State) : (writeLength bits s).bufferLength = s.bufferLength := id rfl
@[simp] theorem writeLength_totalLength (bits : Count) (s : State) : (writeLength bits s).totalLength = s.totalLength := id rfl
@[simp] theorem writeLength_w (bits : Count) (s : State) : (writeLength bits s).w = s.w := id rfl
@[simp] theorem writeLength_i (bits : Count) (s : State) : (writeLength bits s).i = s.i := id rfl
@[simp] theorem writeLength_seq (bits : Count) (s : State) : (writeLength bits s).seq = s.seq := id rfl
@[simp] theorem writeLength_port (bits : Count) (s : State) : (writeLength bits s).port = s.port := id rfl
@[simp] theorem writeLength_out (bits : Count) (s : State) : (writeLength bits s).out = s.out := id rfl
@[simp] theorem writeLength_draws (bits : Count) (s : State) : (writeLength bits s).draws = s.draws := id rfl

/-! ## `takeEncodingError` -/

@[simp] theorem takeEncodingError_phase (s : State) : (takeEncodingError s).phase = .faulted := id rfl
@[simp] theorem takeEncodingError_h (s : State) : (takeEncodingError s).h = (dropContext s).h := id rfl
@[simp] theorem takeEncodingError_buf (s : State) : (takeEncodingError s).buf = (dropContext s).buf := id rfl
@[simp] theorem takeEncodingError_bufferLength (s : State) : (takeEncodingError s).bufferLength = (dropContext s).bufferLength := id rfl
@[simp] theorem takeEncodingError_totalLength (s : State) : (takeEncodingError s).totalLength = (dropContext s).totalLength := id rfl
@[simp] theorem takeEncodingError_w (s : State) : (takeEncodingError s).w = s.w := id rfl
@[simp] theorem takeEncodingError_i (s : State) : (takeEncodingError s).i = s.i := id rfl
@[simp] theorem takeEncodingError_seq (s : State) : (takeEncodingError s).seq = s.seq := id rfl
@[simp] theorem takeEncodingError_port (s : State) : (takeEncodingError s).port = s.port := id rfl
@[simp] theorem takeEncodingError_out (s : State) : (takeEncodingError s).out = s.out ++ [.error encodingErrorCode] := id rfl
@[simp] theorem takeEncodingError_draws (s : State) : (takeEncodingError s).draws = s.draws + 1 := id rfl

/-! ## `spendContext` -/

@[simp] theorem spendContext_phase (s : State) : (spendContext s).phase = .spent := id rfl
@[simp] theorem spendContext_h (s : State) : (spendContext s).h = (dropContext s).h := id rfl
@[simp] theorem spendContext_buf (s : State) : (spendContext s).buf = (dropContext s).buf := id rfl
@[simp] theorem spendContext_bufferLength (s : State) : (spendContext s).bufferLength = (dropContext s).bufferLength := id rfl
@[simp] theorem spendContext_totalLength (s : State) : (spendContext s).totalLength = (dropContext s).totalLength := id rfl
@[simp] theorem spendContext_w (s : State) : (spendContext s).w = s.w := id rfl
@[simp] theorem spendContext_i (s : State) : (spendContext s).i = s.i := id rfl
@[simp] theorem spendContext_seq (s : State) : (spendContext s).seq = s.seq := id rfl
@[simp] theorem spendContext_port (s : State) : (spendContext s).port = s.port := id rfl
@[simp] theorem spendContext_out (s : State) : (spendContext s).out = s.out := id rfl
@[simp] theorem spendContext_draws (s : State) : (spendContext s).draws = s.draws + 1 := id rfl

end Sys2Proof.Machine
end

