-- ==== Sys2Proof/Laws/Compress.lean ====
section
/-! SUPPORT. COMPRESS on the state is COMPRESS as a function: what it leaves in every field, and that it
depends on the hash state and the block alone. -/

namespace Sys2Proof.Machine

/-! ## The 64 steps write the working registers only -/

theorem stepsUpTo_eq (n : Nat) (s : State) :
    stepsUpTo n s = { s with w := roundSteps s.buf.word n s.w } := by
  induction n with
  | zero => rfl
  | succ n ih => rw [stepsUpTo, ih]; rfl

/-- The state with new working registers and a new hash state, once the COMPRESS that made them has ended.
Its two values stand as variables in its lemmas: asked whether two states agree, the kernel must not be made
to unroll the 64 steps. -/
def endCompress (w h : ABCD) (s : State) : State := dropWorking { s with w := w, h := h }

@[simp] theorem endCompress_h (w h : ABCD) (s : State) : (endCompress w h s).h = h := id rfl
@[simp] theorem endCompress_phase (w h : ABCD) (s : State) : (endCompress w h s).phase = s.phase := id rfl
@[simp] theorem endCompress_buf (w h : ABCD) (s : State) : (endCompress w h s).buf = s.buf := id rfl
@[simp] theorem endCompress_bufferLength (w h : ABCD) (s : State) : (endCompress w h s).bufferLength = s.bufferLength := id rfl
@[simp] theorem endCompress_totalLength (w h : ABCD) (s : State) : (endCompress w h s).totalLength = s.totalLength := id rfl
@[simp] theorem endCompress_seq (w h : ABCD) (s : State) : (endCompress w h s).seq = s.seq := id rfl
@[simp] theorem endCompress_port (w h : ABCD) (s : State) : (endCompress w h s).port = s.port := id rfl
@[simp] theorem endCompress_out (w h : ABCD) (s : State) : (endCompress w h s).out = s.out := id rfl
@[simp] theorem endCompress_draws (w h : ABCD) (s : State) : (endCompress w h s).draws = s.draws + 1 := id rfl
@[simp] theorem endCompress_i (w h : ABCD) (s : State) : (endCompress w h s).i = Config.freeIndex s.draws := id rfl

/-- The 64 steps and FEEDFORWARD, for any number of steps. -/
theorem compressSteps_eq (n : Nat) (s : State) :
    dropWorking (opFeedForward (stepsUpTo n (opLoad s))) =
      endCompress (roundSteps s.buf.word n s.h) (s.h.add (roundSteps s.buf.word n s.h)) s := by
  rw [stepsUpTo_eq]; rfl

/-- Everything COMPRESS does (R95, R104): `H` becomes the function's value on `H` and the word view of the
buffer, the hidden registers are drawn, and nothing else is written. -/
theorem compress_eq (s : State) :
    compress s = endCompress (roundSteps s.buf.word 64 s.h) (compressFn s.h s.buf.word) s :=
  compressSteps_eq 64 s

@[simp] theorem compress_h (s : State) : (compress s).h = compressFn s.h s.buf.word := by
  rw [compress_eq, endCompress_h]
@[simp] theorem compress_phase (s : State) : (compress s).phase = s.phase := by
  rw [compress_eq, endCompress_phase]
@[simp] theorem compress_buf (s : State) : (compress s).buf = s.buf := by
  rw [compress_eq, endCompress_buf]
@[simp] theorem compress_bufferLength (s : State) : (compress s).bufferLength = s.bufferLength := by
  rw [compress_eq, endCompress_bufferLength]
@[simp] theorem compress_totalLength (s : State) : (compress s).totalLength = s.totalLength := by
  rw [compress_eq, endCompress_totalLength]
@[simp] theorem compress_seq (s : State) : (compress s).seq = s.seq := by
  rw [compress_eq, endCompress_seq]
@[simp] theorem compress_port (s : State) : (compress s).port = s.port := by
  rw [compress_eq, endCompress_port]
@[simp] theorem compress_out (s : State) : (compress s).out = s.out := by
  rw [compress_eq, endCompress_out]
@[simp] theorem compress_draws (s : State) : (compress s).draws = s.draws + 1 := by
  rw [compress_eq, endCompress_draws]
@[simp] theorem compress_i (s : State) : (compress s).i = Config.freeIndex s.draws := by
  rw [compress_eq, endCompress_i]

/-! ## The block words are the only input besides `H` -/

theorem wordIndex_lt (i : Nat) : wordIndex i < 16 := by
  unfold wordIndex; split <;> omega

theorem roundSteps_congr {x y : Nat → Word} (h : ∀ k, k < 16 → x k = y k) (n : Nat) (q : ABCD) :
    roundSteps x n q = roundSteps y n q := by
  induction n with
  | zero => rfl
  | succ n ih => rw [roundSteps, roundSteps, ih, h _ (wordIndex_lt n)]

theorem compressFn_congr {x y : Nat → Word} (h : ∀ k, k < 16 → x k = y k) (q : ABCD) :
    compressFn q x = compressFn q y := by
  rw [compressFn, compressFn, roundSteps_congr h]

theorem compressBytes_congr {f g : Nat → Byte} (h : ∀ j, j < 64 → f j = g j) (q : ABCD) :
    compressBytes q f = compressBytes q g :=
  compressFn_congr (fun k hk => by
    simp only [wordOfBytes, h (4 * k) (by omega), h (4 * k + 1) (by omega),
      h (4 * k + 2) (by omega), h (4 * k + 3) (by omega)]) q

/-- The word view of the buffer is the words of its 64 bytes (R51, R96). -/
theorem compressFn_word {m : Memory} {f : Nat → Byte} (h : ∀ j, j < 64 → m.read j = f j)
    (q : ABCD) : compressFn q m.word = compressBytes q f :=
  compressFn_congr (fun k hk => by
    rw [Memory.word_eq, wordOfBytes, h (4 * k) (by omega), h (4 * k + 1) (by omega),
      h (4 * k + 2) (by omega), h (4 * k + 3) (by omega)]) q

end Sys2Proof.Machine
end

