-- ==== Sys2Proof/Laws/Append.lean ====
section
/-! SUPPORT. PUSHBYTE, DRAIN and the lists of bytes the append commands push (spec/42_append.md). -/

namespace Sys2Proof.Machine

/-! ## DRAIN and PUSHBYTE -/

@[simp] theorem drain_phase (s : State) : (drain s).phase = s.phase := by simp [drain]
@[simp] theorem drain_h (s : State) : (drain s).h = compressFn s.h s.buf.word := by simp [drain]
@[simp] theorem drain_buf (s : State) : (drain s).buf = s.buf := by simp [drain]
@[simp] theorem drain_bufferLength (s : State) : (drain s).bufferLength = 0 := id rfl
@[simp] theorem drain_totalLength (s : State) :
    (drain s).totalLength = s.totalLength + 64 := id rfl
@[simp] theorem drain_seq (s : State) : (drain s).seq = s.seq := by simp [drain]
@[simp] theorem drain_port (s : State) : (drain s).port = s.port := by simp [drain]
@[simp] theorem drain_out (s : State) : (drain s).out = s.out := by simp [drain]

/-- Everything PUSHBYTE does below the block edge (R120). -/
theorem pushByte_below (v : Byte) (s : State) (h : s.bufferLength.val + 1 < 64) :
    pushByte v s = { s with
      buf := s.buf.write s.bufferLength.val v
      bufferLength := ⟨s.bufferLength.val + 1, h⟩ } := by simp [pushByte, h]

/-- Everything PUSHBYTE does at the block edge (R120): it drains. -/
theorem pushByte_edge (v : Byte) (s : State) (h : s.bufferLength.val = 63) :
    pushByte v s = drain { s with buf := s.buf.write 63 v } := by simp [pushByte, h]

theorem cursor_cases (s : State) : s.bufferLength.val + 1 < 64 ∨ s.bufferLength.val = 63 := by
  have := s.bufferLength.isLt; omega

@[simp] theorem pushByte_phase (v : Byte) (s : State) : (pushByte v s).phase = s.phase := by
  rcases cursor_cases s with h | h <;> simp [pushByte_below, pushByte_edge, h]
@[simp] theorem pushByte_seq (v : Byte) (s : State) : (pushByte v s).seq = s.seq := by
  rcases cursor_cases s with h | h <;> simp [pushByte_below, pushByte_edge, h]
@[simp] theorem pushByte_port (v : Byte) (s : State) : (pushByte v s).port = s.port := by
  rcases cursor_cases s with h | h <;> simp [pushByte_below, pushByte_edge, h]
@[simp] theorem pushByte_out (v : Byte) (s : State) : (pushByte v s).out = s.out := by
  rcases cursor_cases s with h | h <;> simp [pushByte_below, pushByte_edge, h]

/-- The byte a push writes, whether or not the block is then drained. -/
theorem pushByte_buf (v : Byte) (s : State) :
    (pushByte v s).buf = s.buf.write s.bufferLength.val v := by
  rcases cursor_cases s with h | h <;> simp [pushByte_below, pushByte_edge, h]

theorem pushByte_bufferLength (v : Byte) (s : State) :
    (pushByte v s).bufferLength.val = (s.bufferLength.val + 1) % 64 := by
  rcases cursor_cases s with h | h
  · simp [pushByte_below, h, Nat.mod_eq_of_lt h]
  · simp [pushByte_edge, h]

theorem pushByte_totalLength (v : Byte) (s : State) :
    (pushByte v s).totalLength =
      s.totalLength + BitVec.ofNat 64 (64 * ((s.bufferLength.val + 1) / 64)) := by
  rcases cursor_cases s with h | h
  · simp [pushByte_below, h, Nat.div_eq_of_lt h]
  · simp [pushByte_edge, h]

/-! ## Lists of bytes -/

/-- The law all of the chunking law rests on (R129). -/
theorem pushBytes_append (p q : List Byte) (s : State) :
    pushBytes (p ++ q) s = pushBytes q (pushBytes p s) := by
  induction p generalizing s with
  | nil => rfl
  | cons v p ih => exact ih _

@[simp] theorem pushBytes_phase (p : List Byte) (s : State) :
    (pushBytes p s).phase = s.phase := by
  induction p generalizing s with
  | nil => rfl
  | cons v p ih => simp [pushBytes, ih]
@[simp] theorem pushBytes_seq (p : List Byte) (s : State) : (pushBytes p s).seq = s.seq := by
  induction p generalizing s with
  | nil => rfl
  | cons v p ih => simp [pushBytes, ih]
@[simp] theorem pushBytes_port (p : List Byte) (s : State) :
    (pushBytes p s).port = s.port := by
  induction p generalizing s with
  | nil => rfl
  | cons v p ih => simp [pushBytes, ih]
@[simp] theorem pushBytes_out (p : List Byte) (s : State) : (pushBytes p s).out = s.out := by
  induction p generalizing s with
  | nil => rfl
  | cons v p ih => simp [pushBytes, ih]

/-- The cursor after a list of bytes (R122, corner cases). -/
theorem pushBytes_bufferLength (p : List Byte) (s : State) :
    (pushBytes p s).bufferLength.val = (s.bufferLength.val + p.length) % 64 := by
  induction p generalizing s with
  | nil => simpa [pushBytes] using (Nat.mod_eq_of_lt s.bufferLength.isLt).symm
  | cons v p ih => rw [pushBytes, ih, pushByte_bufferLength, List.length_cons]; omega

/-- The counter after a list of bytes: 64 for each drain (R122, corner cases). -/
theorem pushBytes_totalLength (p : List Byte) (s : State) :
    (pushBytes p s).totalLength =
      s.totalLength + BitVec.ofNat 64 (64 * ((s.bufferLength.val + p.length) / 64)) := by
  induction p generalizing s with
  | nil => simp [pushBytes, Nat.div_eq_of_lt s.bufferLength.isLt]
  | cons v p ih =>
    rw [pushBytes, ih, pushByte_bufferLength, pushByte_totalLength, List.length_cons,
      BitVec.add_assoc, ← BitVec.ofNat_add]
    congr 2; omega

/-- Pushing keeps the canonical form of the buffer. -/
theorem pushBytes_wf (p : List Byte) (s : State) (h : s.buf.wf) : (pushBytes p s).buf.wf := by
  induction p generalizing s with
  | nil => exact h
  | cons v p ih =>
    exact ih _ (by rw [pushByte_buf]; exact Memory.wf_write h s.bufferLength.isLt v)

/-- Pushing draws nothing and reads nothing but the context, so a change of port, sequencer or responses
passes through it. -/
theorem respond_pushBytes_buf (p : List Byte) (r : Response) (s : State) :
    (respond r (pushBytes p s)).buf = (pushBytes p s).buf := rfl

end Sys2Proof.Machine
end

