-- ==== Sys2Proof/Laws/Digest.lean ====
section
/-! SUPPORT. FINALIZE and the message (spec/43_finalize.md): the digest of a state is COMPRESS on the one or two
padded blocks its residual bytes make, and a state that holds a message answers the message's digest. -/

namespace Sys2Proof.Machine

/-! ## The blocks FINALIZE compresses -/

theorem padBlock_read (s : State) {j : Nat} (hj : j < 64) :
    (padBlock s).buf.read j = firstPadByte s j := by
  rw [padBlock_buf, Memory.read_zeroFrom _ _ _ hj, Memory.read_write, firstPadByte]
  by_cases h1 : j < s.bufferLength.val
  · rw [if_neg (by omega), if_neg (by omega), if_pos h1]
  · by_cases h2 : j = s.bufferLength.val
    · rw [if_neg (by omega), if_pos h2, if_neg h1, if_pos h2]
    · rw [if_pos (by omega), if_neg h1, if_neg h2]

/-- R52: the length field, byte by byte. -/
theorem writeLength_read (bits : Count) (s : State) {j : Nat} (hj : j < 64) :
    (writeLength bits s).buf.read j =
      if j < 56 then s.buf.read j else bits.extractLsb' (8 * (j - 56)) 8 := by
  rw [writeLength_buf, Memory.read_writeLE, Memory.read_writeLE]
  by_cases h1 : j < 56
  · rw [if_neg (by omega), if_neg (by omega), if_pos h1]
  · rw [if_neg h1]
    by_cases h2 : j < 60
    · rw [if_neg (by omega), if_pos (by omega)]
      apply BitVec.eq_of_toNat_eq
      simp only [BitVec.toNat_ofNat, BitVec.extractLsb'_toNat, Nat.shiftRight_eq_div_pow]
      generalize bits.toNat = n
      obtain rfl | rfl | rfl | rfl : j = 56 ∨ j = 57 ∨ j = 58 ∨ j = 59 := by omega
      all_goals norm_num <;> omega
    · rw [if_pos (by omega)]
      apply BitVec.eq_of_toNat_eq
      simp only [BitVec.toNat_ofNat, BitVec.extractLsb'_toNat, Nat.shiftRight_eq_div_pow]
      generalize bits.toNat = n
      obtain rfl | rfl | rfl | rfl : j = 60 ∨ j = 61 ∨ j = 62 ∨ j = 63 := by omega
      all_goals norm_num <;> omega

/-- The digest FINALIZE forms is COMPRESS on the padded blocks (R140, R141). -/
theorem padAndCompress_h (s : State) : (padAndCompress s).h = finalDigest s := by
  rw [padAndCompress, compress_h, writeLength_h, finalDigest]
  have hlen : bitLength (grandTotal s) =
      (s.totalLength + BitVec.ofNat 64 s.bufferLength.val) * 8 := rfl
  by_cases hn : s.bufferLength.val ≤ 55
  · rw [if_pos hn, overflowBlock, padBlock_bufferLength, if_neg (by omega), padBlock_h]
    refine compressFn_word (fun j hj => ?_) _
    rw [writeLength_read _ _ hj, hlen, lastBlockByte, padBlock_read _ hj]
  · rw [if_neg hn, overflowBlock, padBlock_bufferLength, if_pos (by omega)]
    have h1 : (compress (padBlock s)).h = compressBytes s.h (firstPadByte s) := by
      rw [compress_h, padBlock_h]
      exact compressFn_word (fun j hj => padBlock_read s hj) _
    simp only [h1]
    refine compressFn_word (fun j hj => ?_) _
    rw [writeLength_read _ _ hj, hlen, lastBlockByte, Memory.read_zeroFrom _ _ _ hj,
      if_pos (Nat.zero_le j)]

@[simp] theorem overflowBlock_seq (s : State) : (overflowBlock s).seq = s.seq := by
  unfold overflowBlock; split <;> simp
@[simp] theorem overflowBlock_port (s : State) : (overflowBlock s).port = s.port := by
  unfold overflowBlock; split <;> simp
@[simp] theorem overflowBlock_out (s : State) : (overflowBlock s).out = s.out := by
  unfold overflowBlock; split <;> simp
@[simp] theorem padAndCompress_seq (s : State) : (padAndCompress s).seq = s.seq := by
  simp [padAndCompress]
@[simp] theorem padAndCompress_port (s : State) : (padAndCompress s).port = s.port := by
  simp [padAndCompress]
@[simp] theorem padAndCompress_out (s : State) : (padAndCompress s).out = s.out := by
  simp [padAndCompress]

/-- The digest depends on the defined context only (R36). -/
theorem finalDigest_congr {s t : State} (hh : s.h = t.h) (hl : s.bufferLength = t.bufferLength)
    (ht : s.totalLength = t.totalLength)
    (hb : ∀ j, j < s.bufferLength.val → s.buf.read j = t.buf.read j) :
    finalDigest s = finalDigest t := by
  have hp : firstPadByte s = firstPadByte t := by
    funext j
    unfold firstPadByte
    rw [← hl]
    split
    · exact hb j ‹_›
    · rfl
  simp only [finalDigest, hh, hl, ht, hp]

/-! ## Messages folded block by block -/

/-- One more block at the end of the fold. -/
theorem foldBlocks_succ (n : Nat) (m : List Byte) (h : ABCD) :
    foldBlocks (n + 1) m h =
      compressBytes (foldBlocks n m h) fun j => m.getD (64 * n + j) 0 := by
  rw [foldBlocks]

/-- The fold over the full blocks of a message does not see what follows them. -/
theorem foldBlocks_append (n : Nat) (m p : List Byte) (h : ABCD) (hn : 64 * n ≤ m.length) :
    foldBlocks n (m ++ p) h = foldBlocks n m h := by
  induction n with
  | zero => rfl
  | succ n ih =>
    rw [foldBlocks_succ, foldBlocks_succ, ih (by omega)]
    refine compressBytes_congr (fun j hj => ?_) _
    rw [List.getD_eq_getElem?_getD, List.getD_eq_getElem?_getD,
      List.getElem?_append_left (by omega)]

end Sys2Proof.Machine
end

