-- ==== Sys2Proof/Laws/Message.lean ====
section
/-! SUPPORT. A READY state and the message it holds (spec/10_state.md R28): a push adds its byte to the message, and the
digest of a state that holds a message is the message's (spec/43_finalize.md R147). -/

namespace Sys2Proof.Machine

theorem holds_freshContext (s : State) : Holds [] (freshContext s) :=
  ⟨rfl, rfl, rfl, rfl, fun j hj => absurd hj (by simp)⟩

/-- The step of the invariant of R28: PUSHBYTE adds its byte to the message. -/
theorem holds_pushByte {m : List Byte} {s : State} (h : Holds m s) (v : Byte) :
    Holds (m ++ [v]) (pushByte v s) := by
  obtain ⟨hp, hl, ht, hh, hb⟩ := h
  have hdm := Nat.div_add_mod m.length 64
  refine ⟨by rw [pushByte_phase, hp], ?_, ?_, ?_, ?_⟩
  · rw [pushByte_bufferLength, hl, List.length_append, List.length_singleton]; omega
  · rw [pushByte_totalLength, hl, ht, List.length_append, List.length_singleton,
      ← BitVec.ofNat_add]
    congr 1; omega
  · rw [List.length_append, List.length_singleton]
    rcases cursor_cases s with hc | hc
    · rw [pushByte_below v s hc, show (m.length + 1) / 64 = m.length / 64 by omega,
        foldBlocks_append _ _ _ _ (by omega)]
      exact hh
    · rw [pushByte_edge v s hc, drain_h, show (m.length + 1) / 64 = m.length / 64 + 1 by omega,
        foldBlocks_succ, foldBlocks_append _ _ _ _ (by omega), hh]
      refine compressFn_word (fun j hj => ?_) _
      rw [Memory.read_write, List.getD_eq_getElem?_getD]
      by_cases h63 : j = 63
      · rw [if_pos h63, List.getElem?_append_right (by omega),
          show 64 * (m.length / 64) + j - m.length = 0 by omega]
        rfl
      · rw [if_neg h63, hb j (by omega), List.getElem?_append_left (by omega),
          List.getD_eq_getElem?_getD]
  · intro j hj
    rw [List.length_append, List.length_singleton] at hj ⊢
    rw [pushByte_buf, Memory.read_write, hl, List.getD_eq_getElem?_getD]
    rw [show (m.length + 1) / 64 = m.length / 64 by omega]
    by_cases hjn : j = m.length % 64
    · rw [if_pos hjn, List.getElem?_append_right (by omega),
        show 64 * (m.length / 64) + j - m.length = 0 by omega]
      rfl
    · rw [if_neg hjn, hb j (by omega), List.getElem?_append_left (by omega),
        List.getD_eq_getElem?_getD]

theorem holds_pushBytes {m : List Byte} {s : State} (h : Holds m s) (p : List Byte) :
    Holds (m ++ p) (pushBytes p s) := by
  induction p generalizing m s with
  | nil => simpa [pushBytes] using h
  | cons v p ih => simpa [pushBytes] using ih (holds_pushByte h v)

theorem holds_respond {m : List Byte} {s : State} (h : Holds m s) (r : Response) :
    Holds m (respond r s) := h

/-! ## The bytes of the padded message -/

@[simp] theorem lengthField_length (bits : Nat) : (lengthField bits).length = 8 := by
  simp [lengthField]

theorem paddedMessage_length (m : List Byte) :
    (paddedMessage m).length = 64 * ((m.length + 8) / 64 + 1) := by
  simp [paddedMessage]; omega

theorem paddedMessage_getD (m : List Byte) (k : Nat) :
    (paddedMessage m).getD k 0 =
      if k < m.length then m.getD k 0
      else if k = m.length then 0x80
      else if k < m.length + 1 + (119 - m.length % 64) % 64 then 0
      else (lengthField (8 * m.length)).getD (k - (m.length + 1 + (119 - m.length % 64) % 64)) 0 := by
  simp only [paddedMessage, List.getD_eq_getElem?_getD]
  by_cases h1 : k < m.length
  · rw [if_pos h1, List.getElem?_append_left (by simp; omega),
      List.getElem?_append_left (by simp ; omega), List.getElem?_append_left h1]
  · rw [if_neg h1]
    by_cases h2 : k = m.length
    · subst h2
      rw [if_pos rfl, List.getElem?_append_left (by simp),
        List.getElem?_append_left (by simp), List.getElem?_append_right (by omega)]
      simp
    · rw [if_neg h2]
      by_cases h3 : k < m.length + 1 + (119 - m.length % 64) % 64
      · rw [if_pos h3, List.getElem?_append_left (by simp; omega),
          List.getElem?_append_right (by simp; omega), List.getElem?_replicate]
        split <;> rfl
      · have hl : (m ++ [(0x80 : Byte)] ++
            List.replicate ((119 - m.length % 64) % 64) (0 : Byte)).length =
            m.length + 1 + (119 - m.length % 64) % 64 := by simp; omega
        rw [if_neg h3, List.getElem?_append_right (by omega), hl]

/-- R142, R52: the length field of a message and of a counter that counts it modulo `2^64`. -/
theorem lengthField_getD (n : Nat) {j : Nat} (hj : j < 8) :
    (lengthField (8 * n)).getD j 0 = ((BitVec.ofNat 64 n) * 8).extractLsb' (8 * j) 8 := by
  have h1 : (lengthField (8 * n)).getD j 0 = BitVec.ofNat 8 (8 * n / 2 ^ (8 * j)) := by
    rw [List.getD_eq_getElem?_getD, lengthField, List.getElem?_map, List.getElem?_range hj]
    rfl
  rw [h1]
  apply BitVec.eq_of_toNat_eq
  simp only [BitVec.toNat_ofNat, BitVec.extractLsb'_toNat, Nat.shiftRight_eq_div_pow,
    BitVec.toNat_mul, show (8 : BitVec 64).toNat = 8 from rfl]
  obtain rfl | rfl | rfl | rfl | rfl | rfl | rfl | rfl :
    j = 0 ∨ j = 1 ∨ j = 2 ∨ j = 3 ∨ j = 4 ∨ j = 5 ∨ j = 6 ∨ j = 7 := by omega
  all_goals (norm_num; omega)

/-! ## The digest of a state that holds a message -/

theorem grand_total_of_holds {m : List Byte} {s : State} (h : Holds m s) :
    s.totalLength + BitVec.ofNat 64 s.bufferLength.val = BitVec.ofNat 64 m.length := by
  rw [h.2.2.1, h.2.1, ← BitVec.ofNat_add]
  congr 1; omega

theorem firstPadByte_of_holds {m : List Byte} {s : State} (h : Holds m s) {j : Nat}
    (hj : j < 64) (hz : m.length % 64 ≤ 55 → j < 56) :
    firstPadByte s j = (paddedMessage m).getD (64 * (m.length / 64) + j) 0 := by
  have hdm := Nat.div_add_mod m.length 64
  rw [firstPadByte, h.2.1, paddedMessage_getD]
  by_cases h1 : j < m.length % 64
  · rw [if_pos h1, if_pos (show 64 * (m.length / 64) + j < m.length by omega),
      h.2.2.2.2 j h1]
  · rw [if_neg h1, if_neg (show ¬ 64 * (m.length / 64) + j < m.length by omega)]
    by_cases h2 : j = m.length % 64
    · rw [if_pos h2, if_pos (show 64 * (m.length / 64) + j = m.length by omega)]
    · rw [if_neg h2, if_neg (show ¬ 64 * (m.length / 64) + j = m.length by omega),
        if_pos (by omega)]

/-- R147: the digest FINALIZE forms is `MD5` of the message held. -/
theorem finalDigest_of_holds {m : List Byte} {s : State} (h : Holds m s) :
    finalDigest s = md5 m := by
  have hdm := Nat.div_add_mod m.length 64
  have hblocks : (paddedMessage m).length / 64 = (m.length + 8) / 64 + 1 := by
    rw [paddedMessage_length]; omega
  have hfold : foldBlocks (m.length / 64) (paddedMessage m) ivHash = s.h := by
    rw [h.2.2.2.1, paddedMessage, List.append_assoc, List.append_assoc,
      foldBlocks_append _ _ _ _ (by omega)]
  rw [finalDigest, md5, hblocks]
  by_cases hn : s.bufferLength.val ≤ 55
  · have hn' : m.length % 64 ≤ 55 := h.2.1 ▸ hn
    rw [if_pos hn, show (m.length + 8) / 64 = m.length / 64 by omega, foldBlocks_succ, hfold]
    refine compressBytes_congr (fun j hj => ?_) _
    rw [lastBlockByte]
    by_cases h56 : j < 56
    · rw [if_pos h56, firstPadByte_of_holds h hj fun _ => h56]
    · rw [if_neg h56, grand_total_of_holds h, paddedMessage_getD, if_neg (by omega),
        if_neg (by omega), if_neg (by omega), lengthField_getD _ (by omega)]
      congr 2; omega
  · have hn' : ¬ m.length % 64 ≤ 55 := h.2.1 ▸ hn
    rw [if_neg hn, show (m.length + 8) / 64 = m.length / 64 + 1 by omega, foldBlocks_succ,
      foldBlocks_succ, hfold]
    rw [compressBytes_congr (g := fun j => (paddedMessage m).getD (64 * (m.length / 64) + j) 0)
      fun j hj => firstPadByte_of_holds h hj fun c => absurd c hn']
    refine compressBytes_congr (fun j hj => ?_) _
    rw [lastBlockByte, paddedMessage_getD]
    by_cases h56 : j < 56
    · rw [if_pos h56, if_neg (by omega), if_neg (by omega), if_pos (by omega)]
    · rw [if_neg h56, grand_total_of_holds h, if_neg (by omega),
        if_neg (by omega), if_neg (by omega), lengthField_getD _ (by omega)]
      congr 2; omega

end Sys2Proof.Machine
end

