-- ==== Sys2Proof/Laws/Text.lean ====
section
/-! SUPPORT. The text path (spec/42_append.md R124 to R127): the loop of APPEND_TEXT is the encoder's outputs
pushed in order, or EncodingError taken after the bytes of the units before the first one in error. -/

namespace Sys2Proof.Machine

theorem isHigh_iff (u : Half) : isHigh u = true ↔ 0xD800 ≤ u.toNat ∧ u.toNat ≤ 0xDBFF := by
  simp [isHigh]

theorem isLow_iff (u : Half) : isLow u = true ↔ 0xDC00 ≤ u.toNat ∧ u.toNat ≤ 0xDFFF := by
  simp [isLow]

theorem isLow_of_isHigh {u : Half} (h : isHigh u = true) : isLow u = false := by
  rw [isHigh_iff] at h
  rw [← Bool.not_eq_true, isLow_iff]
  omega

/-- R125: the test `cp > 0x10FFFF` never fires on a pair. -/
theorem pairCodePoint_le {u v : Half} (hu : isHigh u = true) (hv : isLow v = true) :
    pairCodePoint u v ≤ 0x10FFFF := by
  rw [isHigh_iff] at hu
  rw [isLow_iff] at hv
  unfold pairCodePoint
  omega

/-! ## ENCODE, by the kind of the unit -/

/-- A unit outside the surrogate range is encoded alone, whatever follows it. -/
theorem encodeUnit_plain {u : Half} (hu : isHigh u = false) (hl : isLow u = false)
    (next : Option Half) : ∃ bs, encodeUnit u next = .one bs := by
  unfold encodeUnit
  simp only [hu, hl]
  split
  · exact ⟨_, rfl⟩
  · split
    · exact ⟨_, rfl⟩
    · exact ⟨_, rfl⟩

theorem encodeUnit_low {u : Half} (hl : isLow u = true) (next : Option Half) :
    encodeUnit u next = .error .loneLow := by
  have hu : isHigh u = false := by
    cases h : isHigh u
    · rfl
    · simp [isLow_of_isHigh h] at hl
  have := (isLow_iff u).1 hl
  simp only [encodeUnit, hu, hl]
  rw [if_neg (by omega), if_neg (by omega)]
  rfl

theorem encodeUnit_high_last {u : Half} (hu : isHigh u = true) :
    encodeUnit u none = .error .highLast := by
  have := (isHigh_iff u).1 hu
  simp only [encodeUnit, hu]
  rw [if_neg (by omega), if_neg (by omega)]
  rfl

theorem encodeUnit_high_other {u v : Half} (hu : isHigh u = true) (hv : isLow v = false) :
    encodeUnit u (some v) = .error .highWithoutLow := by
  have := (isHigh_iff u).1 hu
  simp only [encodeUnit, hu, hv]
  rw [if_neg (by omega), if_neg (by omega)]
  rfl

theorem encodeUnit_pair {u v : Half} (hu : isHigh u = true) (hv : isLow v = true) :
    encodeUnit u (some v) = .pair (utf8Four (BitVec.ofNat 21 (pairCodePoint u v))) := by
  have := (isHigh_iff u).1 hu
  have hcp := pairCodePoint_le hu hv
  simp only [encodeUnit, hu, hv, if_true]
  rw [if_neg (by omega), if_neg (by omega), if_neg (by omega)]

/-- The last unit of a payload is never half of a pair. -/
theorem encodeUnit_none_ne_pair (u : Half) (bs : List Byte) : encodeUnit u none ≠ .pair bs := by
  cases hu : isHigh u
  · cases hl : isLow u
    · obtain ⟨bs', h⟩ := encodeUnit_plain hu hl none
      simp [h]
    · simp [encodeUnit_low hl]
  · simp [encodeUnit_high_last hu]

/-! ## The loop -/

/-- Everything APPEND_TEXT does to a text the encoder accepts. -/
theorem appendUnits_of_ok {units : List Half} {bs : List Byte} (h : encodeText units = .ok bs)
    (s : State) : appendUnits units s = respond .ok (pushBytes bs s) := by
  induction units using encodeText.induct generalizing bs s with
  | case1 => cases h; rfl
  | case2 u bs' hu => simp_all [encodeText, appendUnits]
  | case3 u bs' hu => simp_all [encodeText, appendUnits]
  | case4 u c hu => simp_all [encodeText]
  | case5 u v rest bs' hu bs'' hr ih =>
    simp only [encodeText, hu, hr, Except.ok.injEq] at h
    simp only [appendUnits, hu, ih hr, ← h, pushBytes_append]
  | case6 u v rest bs' hu c hr ih => simp_all [encodeText]
  | case7 u v rest bs' hu bs'' hr ih =>
    simp only [encodeText, hu, hr, Except.ok.injEq] at h
    simp only [appendUnits, hu, ih hr, ← h, pushBytes_append]
  | case8 u v rest bs' hu c hr ih => simp_all [encodeText]
  | case9 u v rest c hu => simp_all [encodeText]

/-- Everything APPEND_TEXT does to a text with a unit in error: EncodingError is taken, from the state after
the bytes of the units before it. -/
theorem appendUnits_of_error {units : List Half} {c : EncodingCause}
    (h : encodeText units = .error c) (s : State) :
    ∃ p, appendUnits units s = takeEncodingError (pushBytes p s) := by
  induction units using encodeText.induct generalizing c s with
  | case1 => simp [encodeText] at h
  | case2 u bs' hu => simp_all [encodeText]
  | case3 u bs' hu => simp_all [encodeText]
  | case4 u c hu => exact ⟨[], by simp [appendUnits, hu, pushBytes]⟩
  | case5 u v rest bs' hu bs'' hr ih => simp_all [encodeText]
  | case6 u v rest bs' hu c hr ih =>
    obtain ⟨p, hp⟩ := ih hr (pushBytes bs' s)
    exact ⟨bs' ++ p, by simp only [appendUnits, hu, hp, pushBytes_append]⟩
  | case7 u v rest bs' hu bs'' hr ih => simp_all [encodeText]
  | case8 u v rest bs' hu c hr ih =>
    obtain ⟨p, hp⟩ := ih hr (pushBytes bs' s)
    exact ⟨bs' ++ p, by simp only [appendUnits, hu, hp, pushBytes_append]⟩
  | case9 u v rest c hu => exact ⟨[], by simp [appendUnits, hu, pushBytes]⟩

/-- R126: the encoder accepts exactly the texts without a lone surrogate. -/
theorem encodeText_ok_iff (units : List Half) :
    (∃ bs, encodeText units = .ok bs) ↔ wellPaired units = true := by
  induction units using wellPaired.induct with
  | case1 => simp [encodeText, wellPaired]
  | case2 u =>
    cases hu : isHigh u
    · cases hl : isLow u
      · obtain ⟨bs, h⟩ := encodeUnit_plain hu hl none
        simp [encodeText, wellPaired, hu, hl, h]
      · simp [encodeText, wellPaired, hl, encodeUnit_low hl]
    · simp [encodeText, wellPaired, hu, encodeUnit_high_last hu]
  | case3 u v rest hu ih =>
    cases hv : isLow v
    · simp [encodeText, wellPaired, hu, hv, encodeUnit_high_other hu hv]
    · rw [wellPaired, if_pos hu, hv, Bool.true_and, ← ih, encodeText, encodeUnit_pair hu hv]
      cases encodeText rest <;> simp
  | case4 u v rest hu ih =>
    rw [Bool.not_eq_true] at hu
    cases hl : isLow u
    · obtain ⟨bs, h⟩ := encodeUnit_plain hu hl (some v)
      rw [wellPaired, if_neg (by simp [hu]), hl, Bool.not_false, Bool.true_and, ← ih, encodeText, h]
      cases encodeText (v :: rest) <;> simp
    · simp [encodeText, wellPaired, hu, hl, encodeUnit_low hl]

/-- Units below `0x80` are their own bytes (R131). -/
theorem encodeText_ascii (units : List Half) (h : ∀ u ∈ units, u.toNat < 0x80) :
    encodeText units = .ok (units.map asciiByte) := by
  induction units using encodeText.induct with
  | case1 => rfl
  | case2 u bs' hu => simp_all [encodeText, encodeUnit, asciiByte]
  | case3 u bs' hu => exact absurd hu (encodeUnit_none_ne_pair u bs')
  | case4 u c hu => simp_all [encodeUnit]
  | case5 u v rest bs' hu bs'' hr ih =>
    have := ih (fun w hw => h w (List.mem_cons_of_mem _ hw))
    have hu' := h u (by simp)
    rw [encodeUnit, if_pos hu', Encoded.one.injEq] at hu
    simp [encodeText, encodeUnit, hu', this, asciiByte]
  | case6 u v rest bs' hu c hr ih =>
    have := ih (fun w hw => h w (List.mem_cons_of_mem _ hw))
    simp_all
  | case7 u v rest bs' hu bs'' hr ih =>
    have hu' := h u (by simp)
    simp [encodeUnit, hu'] at hu
  | case8 u v rest bs' hu c hr ih =>
    have hu' := h u (by simp)
    simp [encodeUnit, hu'] at hu
  | case9 u v rest c hu =>
    have hu' := h u (by simp)
    simp [encodeUnit, hu'] at hu

end Sys2Proof.Machine
end

