-- ==== Sys2Proof/Laws/Exec.lean ====
section
/-! SUPPORT. What `exec` does, said once for each command: which next state it answers, and when it is refused. -/

namespace Sys2Proof.Machine

/-! ## The phase check -/

theorem whenReady_ready {s : State} (h : s.phase = .ready) (f : State → State) :
    whenReady s f = .next (f s) := by simp [whenReady, h]

theorem whenReady_other {s : State} (h : s.phase ≠ .ready) (f : State → State) :
    whenReady s f = .refused (.wrongPhase s.phase) := by
  unfold whenReady
  split
  · exact absurd ‹_› h
  · rfl

/-! ## The commands in READY -/

theorem exec_reset (s : State) : exec .reset s = .next (respond .ok (freshContext s)) := rfl

theorem exec_appendBytes {s : State} (h : s.phase = .ready) (p : List Byte) :
    exec (.appendBytes p) s = .next (respond .ok (pushBytes p s)) :=
  whenReady_ready h fun s => respond .ok (pushBytes p s)

theorem exec_appendAscii {s : State} (h : s.phase = .ready) (cs : List Half) :
    exec (.appendAscii cs) s = .next (respond .ok (pushBytes (cs.map asciiByte) s)) :=
  whenReady_ready h fun s => respond .ok (pushBytes (cs.map asciiByte) s)

theorem exec_appendText {s : State} (h : s.phase = .ready) (us : List Half) :
    exec (.appendText us) s = .next (appendUnits us s) :=
  whenReady_ready h (appendUnits us)

theorem exec_finalize {s : State} (h : s.phase = .ready) (raw : Bool) :
    exec (.finalize raw) s = .next (respond (digestResponse raw (finalDigest s))
      (spendContext (padAndCompress s))) := by
  rw [← padAndCompress_h]
  exact whenReady_ready h fun s =>
    respond (digestResponse raw (padAndCompress s).h) (spendContext (padAndCompress s))

/-- R131: an append command that raises no error is the push of its bytes. -/
theorem exec_append {i : Instr} {p : List Byte} {s : State} (hs : s.phase = .ready)
    (hi : pushedBytes i = some p) : exec i s = .next (respond .ok (pushBytes p s)) := by
  cases i with
  | appendBytes bs => cases hi; exact exec_appendBytes hs _
  | appendAscii cs => cases hi; exact exec_appendAscii hs _
  | appendText us =>
    cases h : encodeText us with
    | ok bs =>
      simp only [pushedBytes, h, Option.some.injEq] at hi
      rw [exec_appendText hs, appendUnits_of_ok h, hi]
    | error c => simp [pushedBytes, h] at hi
  | _ => simp [pushedBytes] at hi

/-! ## Outside READY -/

/-- R169: any command but RESET is refused outside READY. -/
theorem exec_refused {i : Instr} {s : State} (hi : isCommand i = true) (hr : i ≠ .reset)
    (h : s.phase ≠ .ready) : exec i s = .refused (.wrongPhase s.phase) := by
  cases i with
  | reset => exact absurd rfl hr
  | appendText us => exact whenReady_other h (appendUnits us)
  | appendAscii cs =>
    exact whenReady_other h fun s => respond .ok (pushBytes (cs.map asciiByte) s)
  | appendBytes p => exact whenReady_other h fun s => respond .ok (pushBytes p s)
  | finalize raw =>
    exact whenReady_other h fun s =>
      respond (digestResponse raw (padAndCompress s).h) (spendContext (padAndCompress s))
  | _ => simp [isCommand] at hi

/-! ## All that a command can do -/

/-- One inversion lemma for the five commands: RESET, a push that answers `OK`, EncodingError taken after a push,
or FINALIZE. -/
theorem exec_command_cases {i : Instr} {s t : State} (hi : isCommand i = true)
    (h : exec i s = .next t) :
    (i = .reset ∧ t = respond .ok (freshContext s)) ∨
    (s.phase = .ready ∧ ∃ p, pushedBytes i = some p ∧ t = respond .ok (pushBytes p s)) ∨
    (s.phase = .ready ∧ ∃ us c p, i = .appendText us ∧ encodeText us = .error c ∧
      t = takeEncodingError (pushBytes p s)) ∨
    (s.phase = .ready ∧ ∃ raw, i = .finalize raw ∧
      t = respond (digestResponse raw (finalDigest s))
        (spendContext (padAndCompress s))) := by
  by_cases hr : i = .reset
  · subst hr
    rw [exec_reset, Host.Outcome.next.injEq] at h
    exact .inl ⟨rfl, h.symm⟩
  by_cases hp : s.phase = .ready
  · cases hb : pushedBytes i with
    | some p =>
      rw [exec_append hp hb, Host.Outcome.next.injEq] at h
      exact .inr (.inl ⟨hp, p, rfl, h.symm⟩)
    | none =>
      cases i with
      | appendText us =>
        cases he : encodeText us with
        | ok bs => simp [pushedBytes, he] at hb
        | error c =>
          obtain ⟨p, hpush⟩ := appendUnits_of_error he s
          rw [exec_appendText hp, hpush, Host.Outcome.next.injEq] at h
          exact .inr (.inr (.inl ⟨hp, us, c, p, rfl, he, h.symm⟩))
      | finalize raw =>
        rw [exec_finalize hp, Host.Outcome.next.injEq] at h
        exact .inr (.inr (.inr ⟨hp, raw, rfl, h.symm⟩))
      | reset => exact absurd rfl hr
      | appendAscii cs => simp [pushedBytes] at hb
      | appendBytes p => simp [pushedBytes] at hb
      | _ => simp [isCommand] at hi
  · rw [exec_refused hi hr hp] at h
    cases h

/-- A command leaves the port and the sequencer alone. -/
theorem exec_command_surroundings {i : Instr} {s t : State} (hi : isCommand i = true)
    (h : exec i s = .next t) : t.seq = s.seq ∧ t.port = s.port := by
  rcases exec_command_cases hi h with ⟨-, rfl⟩ | ⟨-, p, -, rfl⟩ | ⟨-, us, c, p, -, -, rfl⟩ |
    ⟨-, raw, -, rfl⟩ <;> simp

/-- A command adds one response. -/
theorem exec_command_out {i : Instr} {s t : State} (hi : isCommand i = true)
    (h : exec i s = .next t) : ∃ r, t.out = s.out ++ [r] := by
  rcases exec_command_cases hi h with ⟨-, rfl⟩ | ⟨-, p, -, rfl⟩ | ⟨-, us, c, p, -, -, rfl⟩ |
    ⟨-, raw, -, rfl⟩
  · exact ⟨.ok, by simp⟩
  · exact ⟨.ok, by simp⟩
  · exact ⟨.error encodingErrorCode, by simp⟩
  · exact ⟨digestResponse raw (finalDigest s), by simp⟩

/-- R91: a context that holds a message before FINALIZE answers its digest. -/
theorem exec_finalize_of_holds {m : List Byte} {s : State} (h : Holds m s) (raw : Bool) :
    exec (.finalize raw) s = .next (respond (digestResponse raw (md5 m))
      (spendContext (padAndCompress s))) := by
  rw [exec_finalize h.1, finalDigest_of_holds h]

/-! ## The micro-operations -/

/-- A micro-operation always completes, and writes the working registers or the hash state only. -/
theorem exec_microOp {i : Instr} (hi : isCommand i = false) (s : State) :
    ∃ w h, exec i s = .next { s with w := w, h := h } := by
  cases i <;> first
    | exact ⟨_, _, rfl⟩
    | simp [isCommand] at hi

end Sys2Proof.Machine
end

