-- ==== Sys2Proof/Laws/Context.lean ====
section
/-! SUPPORT. Contexts that agree as far as they are defined (spec/42_append.md R129, spec/10_state.md R36), short appends, and lists of
commands. -/

namespace Sys2Proof.Machine

theorem sameContext_refl (s : State) : SameContext s s := ⟨rfl, rfl, rfl, rfl, fun _ _ => rfl⟩

theorem sameContext_trans {s t u : State} (h : SameContext s t) (k : SameContext t u) : SameContext s u :=
  ⟨h.1.trans k.1, h.2.1.trans k.2.1, h.2.2.1.trans k.2.2.1, h.2.2.2.1.trans k.2.2.2.1, fun j hj => (h.2.2.2.2 j hj).trans (k.2.2.2.2 j (h.2.2.1 ▸ hj))⟩

theorem sameContext_symm {s t : State} (h : SameContext s t) : SameContext t s :=
  ⟨h.1.symm, h.2.1.symm, h.2.2.1.symm, h.2.2.2.1.symm, fun j hj => (h.2.2.2.2 j (by rw [h.2.2.1]; exact hj)).symm⟩

theorem sameContext_respond (r) (s : State) : SameContext (respond r s) s := ⟨rfl, rfl, rfl, rfl, fun _ _ => rfl⟩

/-- R36: a push reads nothing at or above the cursor. -/
theorem sameContext_pushByte (v : Byte) {s s' : State} (h : SameContext s s') :
    SameContext (pushByte v s) (pushByte v s') := by
  obtain ⟨hp, hh, hl, ht, hb⟩ := h
  refine ⟨by simp [hp], ?_, ?_, ?_, ?_⟩
  · rcases cursor_cases s with hc | hc
    · rw [pushByte_below v s hc, pushByte_below v s' (hl ▸ hc)]; exact hh
    · rw [pushByte_edge v s hc, pushByte_edge v s' (hl ▸ hc), drain_h, drain_h]
      show compressFn s.h _ = compressFn s'.h _
      rw [hh]
      rw [compressFn_word (f := fun j => if j = 63 then v else s.buf.read j) fun j hj => Memory.read_write _ _ _ _]
      rw [compressFn_word (f := fun j => if j = 63 then v else s'.buf.read j) fun j hj => Memory.read_write _ _ _ _]
      refine compressBytes_congr (fun j hj => ?_) _
      by_cases h63 : j = 63
      · rw [if_pos h63, if_pos h63]
      · rw [if_neg h63, if_neg h63]; exact hb j (by omega)
  · apply Fin.ext; rw [pushByte_bufferLength, pushByte_bufferLength, hl]
  · rw [pushByte_totalLength, pushByte_totalLength, hl, ht]
  · intro j hj
    rw [pushByte_bufferLength] at hj
    rw [pushByte_buf, pushByte_buf, Memory.read_write, Memory.read_write, ← hl]
    split
    · rfl
    · exact hb j (by omega)

theorem sameContext_pushBytes (p : List Byte) {s s' : State} (h : SameContext s s') :
    SameContext (pushBytes p s) (pushBytes p s') := by
  induction p generalizing s s' with
  | nil => exact h
  | cons v p ih => exact ih (sameContext_pushByte v h)

/-- What a state holds depends on its defined context only. -/
theorem holds_of_sameContext {m : List Byte} {s t : State} (h : Holds m s) (k : SameContext t s) : Holds m t := by
  refine ⟨k.1.trans h.1, by rw [k.2.2.1]; exact h.2.1, k.2.2.2.1.trans h.2.2.1, k.2.1.trans h.2.2.2.1, fun j hj => ?_⟩
  rw [k.2.2.2.2 j (by rw [k.2.2.1, h.2.1]; exact hj)]; exact h.2.2.2.2 j hj

theorem foldl_pushByte (p : List Byte) (s : State) : p.foldl (fun s v => pushByte v s) s = pushBytes p s := by
  induction p generalizing s with
  | nil => rfl
  | cons v p ih => exact ih _

/-- Everything a payload does that does not fill the buffer (R120, R122). -/
theorem pushBytes_short (p : List Byte) (s : State) (h : s.bufferLength.val + p.length < 64) :
   (pushBytes p s).h = s.h ∧ (pushBytes p s).w = s.w ∧ (pushBytes p s).i = s.i ∧ (pushBytes p s).totalLength = s.totalLength ∧
   ∀ j, (pushBytes p s).buf.read j = if s.bufferLength.val ≤ j ∧ j < s.bufferLength.val + p.length then p.getD (j - s.bufferLength.val) 0 else s.buf.read j := by
  induction p generalizing s with
  | nil => refine ⟨rfl, rfl, rfl, rfl, fun j => ?_⟩; rw [if_neg (by simp)]; rfl
  | cons v p ih =>
    rw [List.length_cons] at h
    have hb := pushByte_below v s (by omega)
    have hl : (pushByte v s).bufferLength.val = s.bufferLength.val + 1 := by rw [hb]
    obtain ⟨h1, h2, h3, h4, h5⟩ := ih (pushByte v s) (by omega)
    rw [pushBytes]
    refine ⟨by rw [h1, hb], by rw [h2, hb], by rw [h3, hb], by rw [h4, hb], fun j => ?_⟩
    rw [h5, hl, pushByte_buf, Memory.read_write, List.length_cons]
    by_cases hj : j = s.bufferLength.val
    · rw [if_neg (by omega), if_pos hj, if_pos (by omega)]
      simp [hj]
    · by_cases hj2 : s.bufferLength.val + 1 ≤ j ∧ j < s.bufferLength.val + 1 + p.length
      · rw [if_pos hj2, if_pos (by omega), show j - s.bufferLength.val = (j - (s.bufferLength.val + 1)) + 1 by omega]
        simp
      · rw [if_neg hj2, if_neg hj, if_neg (by omega)]

/-- A drawn buffer is in canonical form. -/
theorem dropContext_buf_wf (s : State) : (dropContext s).buf.wf := by
  rw [dropContext_buf]; exact Memory.wf_fill Memory.wf_nil _ (by omega)

/-- A run of two lists of commands, one after the other. -/
theorem execAll_append (a b : List Instr) (s t : State) (h : execAll a s = .next t) :
    execAll (a ++ b) s = execAll b t := by
  induction a generalizing s with
  | nil => cases h; rfl
  | cons i a ih =>
    rw [execAll] at h
    rw [List.cons_append, execAll]
    cases he : exec i s with
    | next u => rw [he] at h; exact ih u h
    | fault f => cases f
    | refused r => rw [he] at h; cases h

/-- R129, R78: append commands without error push their bytes and answer `OK` each. -/
theorem execAll_appends (cmds : List Instr) (m : List Byte) (s : State) (hs : s.phase =
      .ready) (hm : messageOf cmds = some m) :
    ∃ t, execAll cmds s = .next t ∧ SameContext t (pushBytes m s) ∧ t.out = s.out ++ List.replicate cmds.length .ok := by
  induction cmds generalizing m s with
  | nil => cases hm; exact ⟨s, rfl, sameContext_refl s, by simp⟩
  | cons i cmds ih =>
    simp only [messageOf] at hm
    split at hm
    · rename_i p q hp hq
      cases hm
      obtain ⟨t, h1, h2, h3⟩ := ih q (respond .ok (pushBytes p s)) (by simp [hs]) hq
      refine ⟨t, by rw [execAll, exec_append hs hp]; exact h1, ?_, ?_⟩
      · rw [pushBytes_append]
        exact sameContext_trans h2 (sameContext_pushBytes q (sameContext_respond _ _))
      · simp [h3, List.replicate_succ]
    · cases hm

/-- R129: append commands without error leave the context of any one append command that pushes the same
bytes. -/
theorem sameAsOne_of_messageOf {cmds : List Instr} {one : Instr} {m : List Byte} {s : State}
    (hs : s.phase = .ready) (hm : messageOf cmds = some m) (ho : pushedBytes one = some m) :
    SameAsOne cmds one s := by
  obtain ⟨t, h1, h2, -⟩ := execAll_appends cmds m s hs hm
  exact ⟨t, _, h1, exec_append hs ho, sameContext_trans h2 (sameContext_symm (sameContext_respond _ _))⟩

end Sys2Proof.Machine
end

