-- ==== Sys2Proof/Laws/Decode.lean ====
section
/-! SUPPORT. Headers and payloads (spec/30_encoding.md): the fields of a header word as arithmetic, what each header decodes to, and
what the decoder makes of a payload that is whole, short or cut. -/

namespace Sys2Proof

/-- R72: the fields of a header, as numbers. -/
theorem headerOp_toNat (w : Word) : (headerOp w).toNat = w.toNat % 16 := by simp [headerOp]

theorem headerRsv_toNat (w : Word) :
    (headerRsv w).toNat = w.toNat / 32 % 8 := by simp [headerRsv, Nat.shiftRight_eq_div_pow]

theorem headerLen_toNat (w : Word) : (headerLen w).toNat = w.toNat / 256 := by
  have := w.isLt
  simp [headerLen, Nat.shiftRight_eq_div_pow]; omega

theorem headerRaw_eq (w : Word) : headerRaw w = decide (w.toNat / 16 % 2 = 1) := by
  simp [headerRaw, BitVec.getLsbD, Nat.testBit_eq_decide_div_mod_eq]

theorem headerOp_eq_iff (w : Word) (k : Nat) (hk : k < 16) : headerOp w = BitVec.ofNat 4 k ↔ w.toNat % 16 = k := by
  rw [← BitVec.toNat_inj, headerOp_toNat, BitVec.toNat_ofNat]; omega

/-- R73, R77: the decoder of headers with every field said as a number. -/
theorem decodeHeader_eq (w : Word) : decodeHeader w =
    if 5 ≤ w.toNat % 16 then .error (.reservedOp (headerOp w))
    else if w.toNat / 32 % 8 ≠ 0 then .error .reservedBits
    else if w.toNat / 16 % 2 = 1 ∧ w.toNat % 16 ≠ 4 then .error .rawOutsideFinalize
    else if w.toNat / 256 ≠ 0 ∧ (w.toNat % 16 = 0 ∨ w.toNat % 16 = 4) then .error .lengthNotAllowed
    else if w.toNat % 16 = 0 then .ok .reset
    else if w.toNat % 16 = 1 then .ok (.appendText (w.toNat / 256))
    else if w.toNat % 16 = 2 then .ok (.appendAscii (w.toNat / 256))
    else if w.toNat % 16 = 3 then .ok (.appendBytes (w.toNat / 256))
    else .ok (.finalize (w.getLsbD 4)) := by
  have h0 := headerOp_eq_iff w 0 (by omega)
  have h1 := headerOp_eq_iff w 1 (by omega)
  have h2 := headerOp_eq_iff w 2 (by omega)
  have h3 := headerOp_eq_iff w 3 (by omega)
  have h4 := headerOp_eq_iff w 4 (by omega)
  have hr : headerRsv w = 0 ↔ w.toNat / 32 % 8 = 0 := by rw [← BitVec.toNat_inj, headerRsv_toNat]; rfl
  have hl : headerLen w = 0 ↔ w.toNat / 256 = 0 := by rw [← BitVec.toNat_inj, headerLen_toNat]; rfl
  unfold decodeHeader
  simp only [headerOp_toNat, headerLen_toNat, headerRaw_eq, ne_eq, decide_eq_true_eq]
  change (if _ then _ else if ¬ headerRsv w = 0 then _ else if _ ∧ ¬ headerOp w = BitVec.ofNat 4 4 then _ else
    if ¬ headerLen w = 0 ∧ (headerOp w = BitVec.ofNat 4 0 ∨ headerOp w = BitVec.ofNat 4 4) then _ else
    if headerOp w = BitVec.ofNat 4 0 then _ else if headerOp w = BitVec.ofNat 4 1 then _ else if headerOp w = BitVec.ofNat 4 2 then _ else if headerOp w = BitVec.ofNat 4 3 then _ else _) = _
  simp only [h0, h1, h2, h3, h4, hr, hl, BitVec.getLsbD, Nat.testBit_eq_decide_div_mod_eq]

/-- R72: the value of an encoded header. -/
theorem headerWord_toNat (n : Nat) (hn : n < payloadBound) (raw : Bool) (op : BitVec 4) :
    (headerWord n raw op).toNat = n * 256 + raw.toNat * 16 + op.toNat := by
  have := op.isLt
  have hb : (BitVec.ofBool raw).toNat = raw.toNat := by cases raw <;> rfl
  have hb2 := Bool.toNat_le raw
  unfold payloadBound at hn
  simp only [headerWord, BitVec.toNat_append, BitVec.toNat_ofNat, hb]
  rw [← Nat.shiftLeft_add_eq_or_of_lt (by omega), ← Nat.shiftLeft_add_eq_or_of_lt (by omega), ← Nat.shiftLeft_add_eq_or_of_lt (by decide)]
  simp only [Nat.shiftLeft_eq, show (0 : BitVec 3).toNat = 0 from rfl]
  omega

/-- Encoded headers decode to their commands. -/
theorem decodeHeader_headerWord (n : Nat) (hn : n < payloadBound) :
  decodeHeader (headerWord 0 false 0) = .ok .reset ∧
  decodeHeader (headerWord n false 1) = .ok (.appendText n) ∧
  decodeHeader (headerWord n false 2) = .ok (.appendAscii n) ∧
  decodeHeader (headerWord n false 3) = .ok (.appendBytes n) ∧
  (∀ raw, decodeHeader (headerWord 0 raw 4) = .ok (.finalize raw)) := by
  have e (op : BitVec 4) := headerWord_toNat n hn false op
  have e0 (raw) (op : BitVec 4) := headerWord_toNat 0 (by decide) raw op
  refine ⟨by decide, ?_, ?_, ?_, by decide⟩
  all_goals
    rw [decodeHeader_eq, e]
    have o1 : (1 : BitVec 4).toNat = 1 := rfl
    have o2 : (2 : BitVec 4).toNat = 2 := rfl
    have o3 : (3 : BitVec 4).toNat = 3 := rfl
    simp only [o1, o2, o3, Bool.toNat_false]
    repeat rw [if_neg (by omega)]
    rw [if_pos (by omega)]
    congr 2; omega

/-- R74: a byte sent in a transfer is read back. -/
theorem byteOfTransfer_transferOfByte (bs : List Byte) : (bs.map transferOfByte).map byteOfTransfer = bs := by
  induction bs with
  | nil => rfl
  | cons b bs ih => simp_all [transferOfByte, byteOfTransfer]

/-- A payload that has all arrived. -/
theorem takePayload_data (es : List Half) (rest : List Transfer) :
    takePayload es.length (es.map .data ++ rest) = .ok (some (es, rest)) := by
  induction es with
  | nil => rfl
  | cons e es ih => simp [takePayload, ih]

/-- A payload that has not all arrived. -/
theorem takePayload_short (es : List Half) (n : Nat) (h : es.length < n) :
    takePayload n (es.map .data) = .ok none := by
  induction es generalizing n with
  | nil => cases n with
    | zero => simp at h
    | succ n => rfl
  | cons e es ih => cases n with
    | zero => simp at h
    | succ n => simp [takePayload, ih n (by simpa using h)]

/-- A payload cut by a header. -/
theorem takePayload_cut (es : List Half) (n : Nat) (v) (ts) (h : es.length < n) :
    takePayload n (es.map .data ++ .header v :: ts) = .error .overlappingCommand := by
  induction es generalizing n with
  | nil => cases n with
    | zero => simp at h
    | succ n => rfl
  | cons e es ih => cases n with
    | zero => simp at h
    | succ n => simp [takePayload, ih n (by simpa using h)]

end Sys2Proof
end

