-- ==== Sys2Proof/Laws/Utf8.lean ====
section
/-! SUPPORT. The bytes of the encoder as arithmetic (spec/42_append.md R125), and texts whose first or last unit is in error. -/

namespace Sys2Proof.Machine

theorem toNat_or_shifted (a b : Byte) (k x : Nat) (h : b.toNat < 2^k) (ha : a.toNat = x <<< k) :
    (a ||| b).toNat = a.toNat + b.toNat := by
  rw [BitVec.toNat_or, ha, Nat.shiftLeft_add_eq_or_of_lt h]

theorem or_shifted_eq (a : Byte) (b : Byte) (k x : Nat) (h : b.toNat < 2^k) (ha : a.toNat = x <<< k) :
    a ||| b = BitVec.ofNat 8 (a.toNat + b.toNat) := by
  apply BitVec.eq_of_toNat_eq
  have h2 := (a ||| b).isLt
  have := toNat_or_shifted a b k x h ha
  rw [this] at h2 ⊢
  rw [BitVec.toNat_ofNat, Nat.mod_eq_of_lt h2]

theorem continuation_eq (v : BitVec 6) : continuation v = BitVec.ofNat 8 (0x80 + v.toNat) := by
  apply BitVec.eq_of_toNat_eq
  have := v.isLt
  rw [continuation, toNat_or_shifted _ _ 7 1 (by simp; omega) rfl]
  simp; omega

/-- R125: two bytes. -/
theorem utf8Two_eq (u : Half) (h : u.toNat < 0x800) :
    utf8Two u = [BitVec.ofNat 8 (0xC0 + u.toNat / 64), BitVec.ofNat 8 (0x80 + u.toNat % 64)] := by
  have e : (BitVec.setWidth 8 (BitVec.extractLsb' 6 5 u)).toNat = u.toNat / 64 := by
    simp [Nat.shiftRight_eq_div_pow]; omega
  rw [utf8Two, continuation_eq, or_shifted_eq _ _ 6 3 (by rw [e]; omega) rfl, e]
  simp

/-- R125: three bytes. -/
theorem utf8Three_eq (u : Half) :
    utf8Three u = [BitVec.ofNat 8 (0xE0 + u.toNat / 4096), BitVec.ofNat 8 (0x80 + u.toNat / 64 % 64), BitVec.ofNat 8 (0x80 + u.toNat % 64)] := by
  have := u.isLt
  have e : (BitVec.setWidth 8 (BitVec.extractLsb' 12 4 u)).toNat = u.toNat / 4096 := by
    simp [Nat.shiftRight_eq_div_pow]; omega
  rw [utf8Three, continuation_eq, continuation_eq, or_shifted_eq _ _ 5 7 (by rw [e]; omega) rfl, e]
  simp [Nat.shiftRight_eq_div_pow]

/-- R125: four bytes. -/
theorem utf8Four_eq (cp : Nat) (h : cp ≤ 0x10FFFF) :
    utf8Four (BitVec.ofNat 21 cp) = [BitVec.ofNat 8 (0xF0 + cp / 262144), BitVec.ofNat 8 (0x80 + cp / 4096 % 64),
            BitVec.ofNat 8 (0x80 + cp / 64 % 64), BitVec.ofNat 8 (0x80 + cp % 64)] := by
  have hcp : (BitVec.ofNat 21 cp).toNat = cp := by rw [BitVec.toNat_ofNat]; omega
  have e : (BitVec.setWidth 8 (BitVec.extractLsb' 18 3 (BitVec.ofNat 21 cp))).toNat = cp / 262144 := by
    simp only [BitVec.toNat_setWidth, BitVec.extractLsb'_toNat, hcp, Nat.shiftRight_eq_div_pow]; omega
  rw [utf8Four, continuation_eq, continuation_eq, continuation_eq, or_shifted_eq _ _ 3 30 (by rw [e]; omega) rfl, e]
  simp only [BitVec.extractLsb'_toNat, hcp, Nat.shiftRight_eq_div_pow, show (240 : BitVec 8).toNat = 240 from rfl]
  norm_num

/-- R123: the low byte of a code. -/
theorem asciiByte_eq (c : Half) : asciiByte c = BitVec.ofNat 8 (c.toNat % 256) := by
  apply BitVec.eq_of_toNat_eq; simp [asciiByte]

/-- R127: a text that ends inside a pair. -/
theorem wellPaired_ends_high (us : List Half) (u : Half) (h : isHigh u = true) :
    wellPaired (us ++ [u]) = false := by
  induction us using wellPaired.induct with
  | case1 => simp [wellPaired, h]
  | case2 v =>
    rw [List.singleton_append, wellPaired]
    split
    · simp [isLow_of_isHigh h]
    · simp [wellPaired, h]
  | case3 v w rest hv ih => simp only [List.cons_append, wellPaired]; rw [if_pos hv, ih, Bool.and_false]
  | case4 v w rest hv ih =>
    rw [List.cons_append, List.cons_append, wellPaired, if_neg hv, ← List.cons_append, ih, Bool.and_false]

/-- R127: a text that begins inside a pair. -/
theorem wellPaired_begins_low (us : List Half) (u : Half) (h : isLow u = true) : wellPaired (u :: us) = false := by
  have hh : isHigh u = false := by
    cases h' : isHigh u
    · rfl
    · rw [isLow_of_isHigh h'] at h; cases h
  cases us <;> simp [wellPaired, h, hh]

/-- R126: the command ends at the first unit in error, whatever follows it. -/
theorem appendUnits_first_error (before after : List Half) (bs : List Byte) (u : Half) (c : EncodingCause) (s : State)
   (hb : encodeText before = .ok bs) (hu : encodeUnit u after.head? = .error c) :
   appendUnits (before ++ u :: after) s = takeEncodingError (pushBytes bs s) := by
  induction before using encodeText.induct generalizing bs s with
  | case1 =>
    cases hb
    cases after <;> simp_all [appendUnits, pushBytes]
  | case2 v bs' hv =>
    -- last unit v then u
    have hv2 : encodeUnit v (some u) = .one bs' ∨ ∃ b, encodeUnit v (some u) = .pair b := by
      by_cases hh : isHigh v = true
      · simp [encodeUnit_high_last hh] at hv
      · by_cases hl : isLow v = true
        · simp [encodeUnit_low hl] at hv
        · simp only [Bool.not_eq_true] at hh hl
          left
          rw [← hv]
          simp [encodeUnit, hh, hl]
    rcases hv2 with hv2 | ⟨b, hv2⟩
    · simp [encodeText, hv] at hb; subst hb
      rw [List.singleton_append, appendUnits, hv2]
      cases after with
      | nil => simp at hu; simp [appendUnits, hu]
      | cons a as => simp at hu; simp [appendUnits, hu]
    · exfalso
      by_cases hh : isHigh v = true
      · simp [encodeUnit_high_last hh] at hv
      · by_cases hl : isLow v = true
        · simp [encodeUnit_low hl] at hv
        · simp only [Bool.not_eq_true] at hh hl
          obtain ⟨b', h'⟩ := encodeUnit_plain hh hl (some u)
          rw [h'] at hv2; cases hv2
  | case3 v bs' hv => exact absurd hv (encodeUnit_none_ne_pair v bs')
  | case4 v c hv => simp [encodeText, hv] at hb
  | case5 v w rest bs' hv bs'' hr ih =>
    simp only [encodeText, hv, hr, Except.ok.injEq] at hb
    subst hb
    rw [List.cons_append, List.cons_append, appendUnits, hv]
    simp only
    have := ih bs'' (pushBytes bs' s) hr
    rw [List.cons_append] at this
    rw [this, pushBytes_append]
  | case6 v w rest bs' hv c hr ih => simp [encodeText, hv, hr] at hb
  | case7 v w rest bs' hv bs'' hr ih =>
    simp only [encodeText, hv, hr, Except.ok.injEq] at hb
    subst hb
    rw [List.cons_append, List.cons_append, appendUnits, hv]
    simp only
    rw [ih bs'' (pushBytes bs' s) hr, pushBytes_append]
  | case8 v w rest bs' hv c hr ih => simp [encodeText, hv, hr] at hb
  | case9 v w rest c hv => simp [encodeText, hv] at hb

end Sys2Proof.Machine
end

