-- ==== Sys2Proof/Laws/OneShot.lean ====
section
/-! SUPPORT. One-shot sequences (spec/44_oneshot.md): how a long payload is cut, what the encoder makes of a text
in pieces, and command lists that stop at the first `ERROR`. -/

namespace Sys2Proof.Machine

/-! ## Cutting a payload -/

theorem cutPayload_flatten (cut : List Half → Nat) (n fuel : Nat) (us : List Half) :
    (cutPayload cut n fuel us).flatten = us := by
  induction fuel generalizing us with
  | zero => simp [cutPayload]
  | succ fuel ih =>
    rw [cutPayload]
    split
    · simp
    · simp [ih]

theorem cutPayload_short (cut : List Half → Nat) {n : Nat} (fuel : Nat) {us : List Half}
    (h : us.length ≤ n) : cutPayload cut n fuel us = [us] := by
  cases fuel with
  | zero => rfl
  | succ fuel => rw [cutPayload, if_pos h]

/-- R75: no piece is longer than the bound, where a cut takes one element at least and `n` at most. -/
theorem cutPayload_length {cut : List Half → Nat} {n : Nat}
    (hc : ∀ us : List Half, 1 ≤ cut us ∧ cut us ≤ n) (fuel : Nat) (us : List Half)
    (hf : us.length ≤ n + fuel) : ∀ p ∈ cutPayload cut n fuel us, p.length ≤ n := by
  induction fuel generalizing us with
  | zero => simpa [cutPayload] using hf
  | succ fuel ih =>
    have := hc us
    rw [cutPayload]
    split
    · simpa
    · intro p hp
      rcases List.mem_cons.1 hp with rfl | hp
      · exact (List.length_take_le _ _).trans this.2
      · exact ih _ (by rw [List.length_drop]; omega) p hp

/-- A payload is cut into one piece at least, and the first begins as the payload does. -/
theorem cutPayload_eq_cons {cut : List Half → Nat} (hc : ∀ us : List Half, 1 ≤ cut us)
    (n fuel : Nat) (us : List Half) :
    ∃ q rest, cutPayload cut n fuel us = q :: rest ∧ q.head? = us.head? := by
  cases fuel with
  | zero => exact ⟨us, [], rfl, rfl⟩
  | succ fuel =>
    rw [cutPayload]
    split
    · exact ⟨us, [], rfl, rfl⟩
    · exact ⟨_, _, rfl, by rw [List.head?_take, if_neg (by have := hc us; omega)]⟩

theorem textCut_bounds {n : Nat} (hn : 2 ≤ n) (us : List Half) :
    1 ≤ textCut n us ∧ textCut n us ≤ n := by
  unfold textCut; split <;> omega

/-- Units without surrogates are cut as codes are. -/
theorem textPieces_eq_asciiPieces (n : Nat) (units : List Half) (h : ∀ u ∈ units, u.toNat < 0x80) :
    textPieces n units = asciiPieces n units := by
  unfold textPieces asciiPieces
  generalize units.length = fuel
  induction fuel generalizing units with
  | zero => rfl
  | succ fuel ih =>
    have hcut : textCut n units = n := by
      have hh : isHigh (units.getD (n - 1) 0) = false := by
        rw [← Bool.not_eq_true, isHigh_iff]
        by_cases hl : n - 1 < units.length
        · have := h _ (List.getElem_mem hl)
          rw [List.getD_eq_getElem _ _ hl]; omega
        · rw [List.getD_eq_default _ _ (by omega)]; simp
      rw [textCut, hh, Bool.false_and]; rfl
    rw [cutPayload, cutPayload, hcut, ih _ fun u hu => h u (List.mem_of_mem_drop hu)]

/-! ## A text in two pieces -/

/-- The cut between `p` and `q` is not inside a surrogate pair. -/
def CutBetweenCharacters (p q : List Half) : Prop :=
  ∀ u v, p.getLast? = some u → q.head? = some v → isHigh u = true → isLow v = false

/-- A text in two pieces has no lone surrogate exactly when neither piece has one. -/
theorem wellPaired_append (p q : List Half) (h : CutBetweenCharacters p q) :
    wellPaired (p ++ q) = (wellPaired p && wellPaired q) := by
  induction p using wellPaired.induct with
  | case1 => simp [wellPaired]
  | case2 u =>
    cases q with
    | nil => simp [wellPaired]
    | cons v q =>
      rw [List.singleton_append, wellPaired, wellPaired]
      cases hu : isHigh u
      · simp
      · simp [h u v rfl rfl hu]
  | case3 u v rest hu ih =>
    have : CutBetweenCharacters rest q := fun x y hx hy =>
      h x y (by cases rest with
        | nil => cases hx
        | cons a r => simpa [List.getLast?_cons_cons] using hx) hy
    simp only [List.cons_append, wellPaired]
    rw [if_pos hu, if_pos hu, ih this, Bool.and_assoc]
  | case4 u v rest hu ih =>
    have : CutBetweenCharacters (v :: rest) q := fun x y hx hy =>
      h x y (by simpa [List.getLast?_cons_cons] using hx) hy
    have ih := ih this
    rw [List.cons_append] at ih
    simp only [List.cons_append, wellPaired]
    rw [if_neg hu, if_neg hu, ih, Bool.and_assoc]

/-- R127, R190: a cut made where a text is too long is between two characters. -/
theorem textCut_between (n : Nat) (us : List Half) (hn : 1 ≤ n) (hl : n < us.length) :
    CutBetweenCharacters (us.take (textCut n us)) (us.drop (textCut n us)) := by
  intro u v hu hv hhigh
  rw [List.head?_drop] at hv
  unfold textCut at hu hv
  split at hu
  · rename_i hc
    rw [if_pos hc] at hv
    rw [Bool.and_eq_true] at hc
    have hv' : us.getD (n - 1) 0 = v := by
      rw [List.getD_eq_getElem?_getD, hv]; rfl
    rw [← hv']; exact isLow_of_isHigh hc.1
  · rename_i hc
    rw [if_neg hc] at hv
    have hv' : us.getD n 0 = v := by rw [List.getD_eq_getElem?_getD, hv]; rfl
    have hu' : us.getD (n - 1) 0 = u := by
      rw [List.getLast?_eq_getElem?, List.length_take, Nat.min_eq_left (by omega),
        List.getElem?_take, if_pos (by omega)] at hu
      rw [List.getD_eq_getElem?_getD, hu]; rfl
    rw [hu', hv', hhigh, Bool.true_and, Bool.not_eq_true] at hc
    exact hc

/-- R127, R190: no cut of a text is inside a surrogate pair, be there lone surrogates elsewhere or not, and no
piece beside a cut is empty. -/
theorem textPieces_between {n : Nat} (hn : 2 ≤ n) (units : List Half)
    {before : List (List Half)} {p q : List Half} {later : List (List Half)}
    (h : textPieces n units = before ++ p :: q :: later) :
    p ≠ [] ∧ q ≠ [] ∧ CutBetweenCharacters p q := by
  unfold textPieces at h
  generalize units.length = fuel at h
  have hc (us : List Half) := (textCut_bounds hn us).1
  induction fuel generalizing units before with
  | zero => exact absurd (congrArg List.length h) (by simp [cutPayload]; omega)
  | succ fuel ih =>
    rw [cutPayload] at h
    split at h
    · exact absurd (congrArg List.length h) (by simp; omega)
    · rename_i hl
      cases before with
      | cons a before => exact ih _ (List.cons.inj h).2
      | nil =>
        obtain ⟨rfl, hrest⟩ := List.cons.inj h
        obtain ⟨q', rest, hq, hhead⟩ := cutPayload_eq_cons hc n fuel (units.drop (textCut n units))
        obtain ⟨rfl, -⟩ := List.cons.inj (hq.symm.trans hrest)
        have hb := textCut_bounds hn units
        refine ⟨?_, ?_, fun u v hu hv => ?_⟩
        · intro h0
          have := congrArg List.length h0
          rw [List.length_take, List.length_nil] at this; omega
        · rintro rfl
          rw [List.head?_nil, eq_comm, List.head?_eq_none_iff, List.drop_eq_nil_iff] at hhead
          omega
        · exact textCut_between n units (by omega) (by omega) u v hu (hhead ▸ hv)

/-- A surrogate pair at the bound goes whole into the next payload, whatever stands before it. -/
theorem textPieces_pair_at_bound {n : Nat} (hn : 2 ≤ n) (x u v : Half) (hu : isHigh u = true)
    (hv : isLow v = true) :
    textPieces n (List.replicate (n - 1) x ++ [u, v]) = [List.replicate (n - 1) x, [u, v]] := by
  have hlen : (List.replicate (n - 1) x ++ [u, v]).length = n + 1 := by simp; omega
  have hcut : textCut n (List.replicate (n - 1) x ++ [u, v]) = n - 1 := by
    have : n - (n - 1) = 1 := by omega
    simp [textCut, List.getElem?_append_right, this, hu, hv]
  rw [textPieces, hlen, cutPayload, if_neg (by omega), hcut, List.take_left' (by simp),
    List.drop_left' (by simp), cutPayload_short _ _ (by simpa using hn)]

/-- R127, R190: the pieces of a text are well paired exactly when the text is. -/
theorem textPieces_wellPaired {n : Nat} (hn : 1 ≤ n) (units : List Half) :
    wellPaired units = true ↔ ∀ p ∈ textPieces n units, wellPaired p = true := by
  unfold textPieces
  generalize units.length = fuel
  induction fuel generalizing units with
  | zero => simp [cutPayload]
  | succ fuel ih =>
    rw [cutPayload]
    split
    · simp
    · rename_i hl
      have h := wellPaired_append _ _ (textCut_between n units hn (by omega))
      rw [List.take_append_drop] at h
      rw [h, Bool.and_eq_true, ih (units.drop (textCut n units))]
      simp

/-- R131: a text in two pieces without error is encoded piece by piece. -/
theorem encodeText_append {p q a b : List _} (hp : encodeText p = .ok a)
    (hq : encodeText q = .ok b) : encodeText (p ++ q) = .ok (a ++ b) := by
  induction p using encodeText.induct generalizing a with
  | case1 => cases hp; simpa using hq
  | case2 u bs hu =>
    simp only [encodeText, hu, Except.ok.injEq] at hp
    subst hp
    cases q with
    | nil => cases hq; simp [encodeText, hu]
    | cons v q =>
      have : encodeUnit u (some v) = .one bs := by
        cases hh : isHigh u
        · cases hl : isLow u
          · rw [← hu]; simp [encodeUnit, hh, hl]
          · simp [encodeUnit_low hl] at hu
        · simp [encodeUnit_high_last hh] at hu
      rw [List.singleton_append, encodeText, this]
      simp [hq]
  | case3 u bs hu => exact absurd hu (encodeUnit_none_ne_pair u bs)
  | case4 u c hu => simp [encodeText, hu] at hp
  | case5 u v rest bs hu bs' hr ih =>
    simp only [encodeText, hu, hr, Except.ok.injEq] at hp
    subst hp
    have := ih hr
    rw [List.cons_append] at this
    rw [List.cons_append, List.cons_append, encodeText, hu]
    simp [this]
  | case6 u v rest bs hu c hr ih => simp [encodeText, hu, hr] at hp
  | case7 u v rest bs hu bs' hr ih =>
    simp only [encodeText, hu, hr, Except.ok.injEq] at hp
    subst hp
    rw [List.cons_append, List.cons_append, encodeText, hu]
    simp [ih hr]
  | case8 u v rest bs hu c hr ih => simp [encodeText, hu, hr] at hp
  | case9 u v rest c hu => simp [encodeText, hu] at hp

/-- R127, R131: a text without error, cut between two characters, is two texts without error, and its bytes are
theirs in order. -/
theorem encodeText_split {p q : List Half} {bs : List Byte} (hb : CutBetweenCharacters p q)
    (h : encodeText (p ++ q) = .ok bs) :
    ∃ a b, encodeText p = .ok a ∧ encodeText q = .ok b ∧ bs = a ++ b := by
  have hw := (encodeText_ok_iff _).1 ⟨bs, h⟩
  rw [wellPaired_append p q hb, Bool.and_eq_true] at hw
  obtain ⟨a, ha⟩ := (encodeText_ok_iff p).2 hw.1
  obtain ⟨b, hb⟩ := (encodeText_ok_iff q).2 hw.2
  rw [encodeText_append ha hb, Except.ok.injEq] at h
  exact ⟨a, b, ha, hb, h.symm⟩

/-- The message of a text sent in pieces without error is the text's bytes. -/
theorem messageOf_appendText (ps : List (List Half))
    (h : ∀ p ∈ ps, ∃ bs, encodeText p = .ok bs) :
    ∃ bs, messageOf (ps.map .appendText) = some bs ∧ encodeText ps.flatten = .ok bs := by
  induction ps with
  | nil => exact ⟨[], rfl, rfl⟩
  | cons p ps ih =>
    obtain ⟨a, ha⟩ := h p (by simp)
    obtain ⟨b, hb, hb'⟩ := ih fun q hq => h q (by simp [hq])
    exact ⟨a ++ b, by simp [messageOf, pushedBytes, ha, hb],
      by rw [List.flatten_cons]; exact encodeText_append ha hb'⟩

theorem messageOf_appendAscii (ps : List (List Half)) :
    messageOf (ps.map .appendAscii) = some (ps.flatten.map asciiByte) := by
  induction ps with
  | nil => rfl
  | cons p ps ih => simp [messageOf, pushedBytes, ih]

/-! ## Commands issued until one answers `ERROR` -/

/-- In FAULTED nothing more is issued. -/
theorem issueUntilError_faulted (is : List Instr) {s : State} (h : s.phase = .faulted) :
    issueUntilError is s = .next s := by
  cases is with
  | nil => rfl
  | cons i is => rw [issueUntilError, if_pos h]

/-- A command that completes, out of FAULTED. -/
theorem issueUntilError_next {i : Instr} (is : List Instr) {s t : State} (h : s.phase ≠ .faulted)
    (he : exec i s = .next t) : issueUntilError (i :: is) s = issueUntilError is t := by
  rw [issueUntilError, if_neg h, he]

/-- Append commands without error are all issued, and the commands after them follow. -/
theorem issueUntilError_appends (is js : List Instr) {m : List Byte} {s : State}
    (hs : s.phase = .ready) (hm : messageOf is = some m) :
    ∃ t, t.phase = .ready ∧ execAll is s = .next t ∧
      issueUntilError (is ++ js) s = issueUntilError js t := by
  induction is generalizing m s with
  | nil => exact ⟨s, hs, rfl, rfl⟩
  | cons i is ih =>
    simp only [messageOf] at hm
    split at hm
    · rename_i p q hp hq
      obtain ⟨t, h1, h2, h3⟩ := ih (s := respond .ok (pushBytes p s)) (by simp [hs]) hq
      refine ⟨t, h1, by rw [execAll, exec_append hs hp]; exact h2, ?_⟩
      rw [List.cons_append, issueUntilError_next _ (by rw [hs]; decide) (exec_append hs hp), h3]
    · cases hm

end Sys2Proof.Machine
end

