-- ==== Sys2Proof/Laws/PerInstr.lean ====
section
/-! SUPPORT. Statements about every instruction, one lemma per constructor. -/

namespace Sys2Proof.Laws.OpcodeTable

/-- R73, R81: the first word of a well-formed instruction's code is a word of the instruction's own row of
spec/opcode_table.json: under the row's mask it is the row's match. -/
def Statement (i : Instr) : Prop :=
  i.wf = true → ∃ w, firstWord (encode i) = some w ∧ w &&& (opcodeRow i).mask = (opcodeRow i).pattern

/-- Under the mask of bits 7:0 an append command's header is its operation code. -/
theorem append_header (n op : Nat) (ho : op < 16) (hn : n < payloadBound) :
    headerWord n false (BitVec.ofNat 4 op) &&& 0x000000FF = BitVec.ofNat 32 op := by
  apply BitVec.eq_of_toNat_eq
  rw [BitVec.toNat_and, headerWord_toNat n hn, BitVec.toNat_ofNat, BitVec.toNat_ofNat]
  change _ &&& (2 ^ 8 - 1) = _
  rw [Nat.and_two_pow_sub_one_eq_mod, Bool.toNat_false]
  omega

theorem reset : Statement .reset := fun _ => ⟨_, rfl, by decide⟩

theorem appendText (units : List Half) : Statement (.appendText units) := fun h =>
  ⟨_, rfl, append_header units.length 1 (by omega) (of_decide_eq_true h)⟩

theorem appendAscii (chars : List Half) : Statement (.appendAscii chars) := fun h =>
  ⟨_, rfl, append_header chars.length 2 (by omega) (of_decide_eq_true h)⟩

theorem appendBytes (bytes : List Byte) : Statement (.appendBytes bytes) := fun h =>
  ⟨_, rfl, append_header bytes.length 3 (by omega) (of_decide_eq_true h)⟩

theorem finalize (raw : Bool) : Statement (.finalize raw) := fun _ =>
  ⟨_, rfl, by cases raw <;> decide⟩

theorem load : Statement .load := fun _ => ⟨_, rfl, by decide⟩
theorem step0 : Statement .step0 := fun _ => ⟨_, rfl, by decide⟩
theorem step1 : Statement .step1 := fun _ => ⟨_, rfl, by decide⟩
theorem step2 : Statement .step2 := fun _ => ⟨_, rfl, by decide⟩
theorem step3 : Statement .step3 := fun _ => ⟨_, rfl, by decide⟩
theorem step4 : Statement .step4 := fun _ => ⟨_, rfl, by decide⟩
theorem step5 : Statement .step5 := fun _ => ⟨_, rfl, by decide⟩
theorem step6 : Statement .step6 := fun _ => ⟨_, rfl, by decide⟩
theorem step7 : Statement .step7 := fun _ => ⟨_, rfl, by decide⟩
theorem step8 : Statement .step8 := fun _ => ⟨_, rfl, by decide⟩
theorem step9 : Statement .step9 := fun _ => ⟨_, rfl, by decide⟩
theorem step10 : Statement .step10 := fun _ => ⟨_, rfl, by decide⟩
theorem step11 : Statement .step11 := fun _ => ⟨_, rfl, by decide⟩
theorem step12 : Statement .step12 := fun _ => ⟨_, rfl, by decide⟩
theorem step13 : Statement .step13 := fun _ => ⟨_, rfl, by decide⟩
theorem step14 : Statement .step14 := fun _ => ⟨_, rfl, by decide⟩
theorem step15 : Statement .step15 := fun _ => ⟨_, rfl, by decide⟩
theorem step16 : Statement .step16 := fun _ => ⟨_, rfl, by decide⟩
theorem step17 : Statement .step17 := fun _ => ⟨_, rfl, by decide⟩
theorem step18 : Statement .step18 := fun _ => ⟨_, rfl, by decide⟩
theorem step19 : Statement .step19 := fun _ => ⟨_, rfl, by decide⟩
theorem step20 : Statement .step20 := fun _ => ⟨_, rfl, by decide⟩
theorem step21 : Statement .step21 := fun _ => ⟨_, rfl, by decide⟩
theorem step22 : Statement .step22 := fun _ => ⟨_, rfl, by decide⟩
theorem step23 : Statement .step23 := fun _ => ⟨_, rfl, by decide⟩
theorem step24 : Statement .step24 := fun _ => ⟨_, rfl, by decide⟩
theorem step25 : Statement .step25 := fun _ => ⟨_, rfl, by decide⟩
theorem step26 : Statement .step26 := fun _ => ⟨_, rfl, by decide⟩
theorem step27 : Statement .step27 := fun _ => ⟨_, rfl, by decide⟩
theorem step28 : Statement .step28 := fun _ => ⟨_, rfl, by decide⟩
theorem step29 : Statement .step29 := fun _ => ⟨_, rfl, by decide⟩
theorem step30 : Statement .step30 := fun _ => ⟨_, rfl, by decide⟩
theorem step31 : Statement .step31 := fun _ => ⟨_, rfl, by decide⟩
theorem step32 : Statement .step32 := fun _ => ⟨_, rfl, by decide⟩
theorem step33 : Statement .step33 := fun _ => ⟨_, rfl, by decide⟩
theorem step34 : Statement .step34 := fun _ => ⟨_, rfl, by decide⟩
theorem step35 : Statement .step35 := fun _ => ⟨_, rfl, by decide⟩
theorem step36 : Statement .step36 := fun _ => ⟨_, rfl, by decide⟩
theorem step37 : Statement .step37 := fun _ => ⟨_, rfl, by decide⟩
theorem step38 : Statement .step38 := fun _ => ⟨_, rfl, by decide⟩
theorem step39 : Statement .step39 := fun _ => ⟨_, rfl, by decide⟩
theorem step40 : Statement .step40 := fun _ => ⟨_, rfl, by decide⟩
theorem step41 : Statement .step41 := fun _ => ⟨_, rfl, by decide⟩
theorem step42 : Statement .step42 := fun _ => ⟨_, rfl, by decide⟩
theorem step43 : Statement .step43 := fun _ => ⟨_, rfl, by decide⟩
theorem step44 : Statement .step44 := fun _ => ⟨_, rfl, by decide⟩
theorem step45 : Statement .step45 := fun _ => ⟨_, rfl, by decide⟩
theorem step46 : Statement .step46 := fun _ => ⟨_, rfl, by decide⟩
theorem step47 : Statement .step47 := fun _ => ⟨_, rfl, by decide⟩
theorem step48 : Statement .step48 := fun _ => ⟨_, rfl, by decide⟩
theorem step49 : Statement .step49 := fun _ => ⟨_, rfl, by decide⟩
theorem step50 : Statement .step50 := fun _ => ⟨_, rfl, by decide⟩
theorem step51 : Statement .step51 := fun _ => ⟨_, rfl, by decide⟩
theorem step52 : Statement .step52 := fun _ => ⟨_, rfl, by decide⟩
theorem step53 : Statement .step53 := fun _ => ⟨_, rfl, by decide⟩
theorem step54 : Statement .step54 := fun _ => ⟨_, rfl, by decide⟩
theorem step55 : Statement .step55 := fun _ => ⟨_, rfl, by decide⟩
theorem step56 : Statement .step56 := fun _ => ⟨_, rfl, by decide⟩
theorem step57 : Statement .step57 := fun _ => ⟨_, rfl, by decide⟩
theorem step58 : Statement .step58 := fun _ => ⟨_, rfl, by decide⟩
theorem step59 : Statement .step59 := fun _ => ⟨_, rfl, by decide⟩
theorem step60 : Statement .step60 := fun _ => ⟨_, rfl, by decide⟩
theorem step61 : Statement .step61 := fun _ => ⟨_, rfl, by decide⟩
theorem step62 : Statement .step62 := fun _ => ⟨_, rfl, by decide⟩
theorem step63 : Statement .step63 := fun _ => ⟨_, rfl, by decide⟩
theorem feedforward : Statement .feedforward := fun _ => ⟨_, rfl, by decide⟩

end Sys2Proof.Laws.OpcodeTable
end

