-- ==== Sys2Proof/Laws/Step.lean ====
section
/-! SUPPORT. The fetch and the step: what `step` does on each thing a fetch can find, and where the sequencer goes. -/

namespace Sys2Proof.Machine

/-! ## The port -/

theorem fetch_idle {s : State} (h : s.seq = .cIdle) : fetch s = fetchCommand s := by
  simp [fetch, h]

/-- The headers whose commands have a payload, and how many elements of it (R74). -/
def headerPayload : Header → Option Nat
  | .appendText n => some n
  | .appendAscii n => some n
  | .appendBytes n => some n
  | _ => none

/-- What a legal header's payload decodes to is that header's command, which needs READY unless it is RESET. -/
theorem decodePayload_command {h : Header} {ts : List Transfer} {i : Instr}
    {rest : List Transfer} (hd : decodePayload h ts = .instr i rest) :
    isCommand i = true ∧ (h = .reset ↔ i = .reset) := by
  cases h with
  | reset => cases hd; simp [isCommand]
  | finalize raw => cases hd; simp [isCommand]
  | appendText n =>
    simp only [decodePayload, withPayload] at hd
    split at hd <;> cases hd
    simp [isCommand]
  | appendAscii n =>
    simp only [decodePayload, withPayload] at hd
    split at hd <;> cases hd
    simp [isCommand]
  | appendBytes n =>
    simp only [decodePayload, withPayload] at hd
    split at hd <;> cases hd
    simp [isCommand]

theorem headerRuns_iff (h : Header) (s : State) :
    headerRuns h s = true ↔ h = .reset ∨ s.phase = .ready := by
  cases h <;> simp [headerRuns]

/-- What the fetch makes of a whole command at the head of the port: that command, or the refusal `exec` would
answer. -/
theorem fetchCommand_of_decode {s : State} {i : Instr} {rest : List Transfer}
    (h : decodeTransfers s.port = .instr i rest) :
    isCommand i = true ∧ (fetchCommand s = .command i rest ∨
      i ≠ .reset ∧ s.phase ≠ .ready ∧ fetchCommand s = .refuse (.wrongPhase s.phase)) := by
  rcases hp : s.port with _ | ⟨t, ts⟩
  · rw [hp] at h; cases h
  cases t with
  | data e => rw [hp] at h; cases h
  | header w =>
    rw [hp, decodeTransfers] at h
    cases hw : decodeHeader w with
    | error r => rw [hw] at h; cases h
    | ok hd =>
      rw [hw] at h
      obtain ⟨hc, hr⟩ := decodePayload_command h
      refine ⟨hc, ?_⟩
      simp only [fetchCommand, hp, hw]
      by_cases hrun : headerRuns hd s = true
      · left
        simp only at h
        rw [if_pos hrun, h]
      · right
        rw [headerRuns_iff, not_or] at hrun
        exact ⟨fun c => hrun.1 (hr.2 c), hrun.2, by
          rw [if_neg (by rw [headerRuns_iff, not_or]; exact hrun)]⟩

/-- A step that runs a command. -/
theorem step_command {s : State} {i : Instr} {rest : List Transfer} (hs : s.seq = .cIdle)
    (h : decodeTransfers s.port = .instr i rest) : step s = exec i (consume s rest) := by
  obtain ⟨hc, h | ⟨hr, hp, h⟩⟩ := fetchCommand_of_decode h
  · simp [step, fetch_idle hs, h]
  · have : exec i (consume s rest) = .refused (.wrongPhase s.phase) :=
      exec_refused (s := consume s rest) hc hr hp
    simp [step, fetch_idle hs, h, this]

/-- What the fetch finds on the port is a command of R70. -/
theorem fetchCommand_isCommand {s : State} {i : Instr} {rest : List Transfer}
    (h : fetchCommand s = .command i rest) : isCommand i = true := by
  unfold fetchCommand at h
  split at h
  · cases h
  · cases h
  · split at h
    · cases h
    · split at h
      · split at h
        · rename_i hd
          cases h
          exact (decodePayload_command hd).1
        all_goals cases h
      · cases h

theorem fetchCommand_ne_microOp (s : State) (i : Instr) : fetchCommand s ≠ .microOp i := by
  unfold fetchCommand
  repeat' split
  all_goals simp

/-! ## The sequencer -/

/-- Every micro-operation index that is used decodes to a micro-operation (R81). -/
theorem decodeMicroOp_used : ∀ u : BitVec 7, u.toNat ≤ 0x41 →
    ∃ i, decodeMicroOp u = .instr i [] ∧ isCommand i = false := by
  have h : ∀ n : Fin 128, n.val ≤ 0x41 →
      (match decodeMicroOp ⟨n⟩ with
        | .instr i [] => !isCommand i
        | _ => false) = true := by decide +kernel
  intro u hu
  have := h u.toFin hu
  cases hd : decodeMicroOp u with
  | instr i rest =>
    cases rest with
    | nil => exact ⟨i, rfl, by simpa [hd] using this⟩
    | cons _ _ => simp [hd] at this
  | _ => simp [hd] at this

/-- A step out of `C_IDLE`, where the sequencer stands at a micro-operation. -/
theorem step_microOp {s : State} {u : BitVec 7} {i : Instr} (hu : seqIndex s = some u)
    (hd : decodeMicroOp u = .instr i []) : step s = afterMicroOp (exec i s) := by
  have hs : s.seq ≠ .cIdle := by
    intro h; simp [seqIndex, h] at hu
  have : fetch s = .microOp i := by
    unfold fetch
    split
    · exact absurd ‹_› hs
    · simp [hu, decode, hd]
  simp [step, this]

/-- One inversion lemma for a step that answers a next state: a command, a micro-operation, or nothing. -/
theorem step_cases {s t : State} (h : step s = .next t) :
    (s.seq = .cIdle ∧ ∃ i rest, isCommand i = true ∧ exec i (consume s rest) = .next t) ∨
    (s.seq ≠ .cIdle ∧ ∃ w h, t = advanceSeq { s with w := w, h := h }) ∨ t = s := by
  unfold step at h
  split at h
  · rename_i i hf
    right; left
    by_cases hs : s.seq = .cIdle
    · rw [fetch_idle hs] at hf
      exact absurd hf (fetchCommand_ne_microOp s i)
    refine ⟨hs, ?_⟩
    have hi : isCommand i = false := by
      unfold fetch at hf
      split at hf
      · exact absurd ‹_› hs
      · split at hf
        · cases hf
        · rename_i u hu
          have hle : u.toNat ≤ 0x41 := by
            unfold seqIndex at hu
            split at hu
            · cases hu
            · cases hu; decide
            · split at hu
              · cases hu
                rw [BitVec.toNat_ofNat]; omega
              · cases hu
            · cases hu; decide
          obtain ⟨j, hj, hc⟩ := decodeMicroOp_used u hle
          simp only [decode, hj, Fetched.microOp.injEq] at hf
          exact hf ▸ hc
    obtain ⟨w, h', he⟩ := exec_microOp hi s
    rw [he, afterMicroOp, Host.Outcome.next.injEq] at h
    exact ⟨w, h', h.symm⟩
  · rename_i i rest hf
    left
    by_cases hs : s.seq = .cIdle
    · rw [fetch_idle hs] at hf
      exact ⟨hs, i, rest, fetchCommand_isCommand hf, h⟩
    · unfold fetch at hf
      split at hf
      · exact absurd ‹_› hs
      · split at hf
        · cases hf
        · split at hf <;> cases hf
  · right; right
    exact (Host.Outcome.next.inj h).symm
  · cases h

end Sys2Proof.Machine
end

