-- ==== Sys2Proof/Laws/Run.lean ====
section
/-! SUPPORT. Runs of steps, and the sequencer inside a COMPRESS (spec/41_compress.md R106). -/

namespace Sys2Proof.Machine

/-- One step of a run of any machine. -/
theorem Core_run_next (M : Host.Core) {s u : M.State} (h : M.step s = .next u) (k : Nat) :
    M.run (k+1) s = M.run k u := by
  rw [Host.Core.run, h]

theorem Core_run_refused (M : Host.Core) {s : M.State} {r} (h : M.step s = .refused r) (k : Nat) :
    M.run (k+1) s = .refused r := by
  rw [Host.Core.run, h]

/-- One step of a run of the engine. -/
theorem run_next {s u : State} (h : step s = .next u) (k : Nat) :
    Host.Core.run Sys2Proof.core (k+1) s = Host.Core.run Sys2Proof.core k u := Core_run_next Sys2Proof.core h k

theorem run_refused {s : State} {r} (h : step s = .refused r) (k : Nat) :
    Host.Core.run Sys2Proof.core (k+1) s = .refused r := Core_run_refused Sys2Proof.core h k

/-- A run with one more step at its end. -/
theorem run_succ (n : Nat) (s t : State) (h : Host.Core.run Sys2Proof.core n s = .next t) :
    Host.Core.run Sys2Proof.core (n+1) s = step t := by
  induction n generalizing s with
  | zero =>
    have : s = t := Host.Outcome.next.inj h
    subst this
    cases hs : step s with
    | next u => rw [run_next hs]; rfl
    | fault f => cases f
    | refused r => exact run_refused hs 0
  | succ n ih =>
    cases hs : step s with
    | next u => rw [run_next hs] at h ⊢; exact ih u h
    | fault f => cases f
    | refused r => rw [run_refused hs] at h; cases h

/-- R81, R105: index `n` decodes to the instruction that does what the tables say of step `n`. -/
theorem decodeMicroOp_step : ∀ (n : Fin 64) (s : State),
    match decodeMicroOp (BitVec.ofNat 7 n.val) with
    | .instr i [] => exec i s = .next (tableStep n.val s)
    | _ => False := by
  intro n s
  fin_cases n <;> rfl

/-- The state inside a COMPRESS of `s`, where `n` steps have run and left `w` in the working registers. -/
def atStep (s : State) (n : Nat) (hn : n ≤ 64) (w : ABCD) : State :=
  { s with w := w, seq := if n = 64 then .cAdd else .cStep, i := ⟨n, by omega⟩ }

/-- One step inside a COMPRESS. -/
theorem step_atStep (s : State) (n : Nat) (hn : n < 64) (w : ABCD) :
    step (atStep s n (by omega) w) =
      .next (atStep s (n+1) (by omega)
        (roundStep (groupFn (n / 16)) (s.buf.word (wordIndex n)) (rotation n) (additive n) w)) := by
  have hu : seqIndex (atStep s n (by omega) w) = some (BitVec.ofNat 7 n) := by
    simp [seqIndex, atStep, hn, Nat.ne_of_lt hn]
  have hd := decodeMicroOp_step ⟨n, hn⟩ (atStep s n (by omega) w)
  cases h : decodeMicroOp (BitVec.ofNat 7 n) with
  | instr i rest =>
    rw [h] at hd
    cases rest with
    | nil =>
      simp only at hd
      rw [step_microOp hu h, hd, afterMicroOp]
      have hs : (tableStep n (atStep s n (by omega) w)).seq = .cStep := by
        simp [tableStep, opStep, atStep, Nat.ne_of_lt hn]
      have hi : (tableStep n (atStep s n (by omega) w)).i = ⟨n, by omega⟩ := rfl
      unfold advanceSeq
      rw [hs]
      simp only [hi]
      by_cases h63 : n < 63
      · rw [dif_pos h63]
        simp [tableStep, opStep, atStep, Nat.ne_of_lt hn, show n + 1 ≠ 64 by omega]
      · have : n = 63 := by omega
        subst this
        rw [dif_neg h63]
        simp [tableStep, opStep, atStep]
    | cons _ _ => exact hd.elim
  | _ => rw [h] at hd; exact hd.elim

end Sys2Proof.Machine
end

