-- ==== Sys2Proof/Tests/Slice0.lean ====
section
/-! SUPPORT. The model's own tests, each with the vector of spec/95_test_vectors.md it is taken from (none of the
expected values comes from the model), and for every statement that has hypotheses a witness that meets
them, each clause at the edges of its range. -/

namespace Sys2Proof.Tests

open Sys2Proof Sys2Proof.Machine

/-! ## Small states and readers -/

/-- READY after RESET. -/
def ready : State := { State.reset with phase := .ready, h := ivHash }

/-- READY, `n` bytes in the buffer, the bytes themselves `0x61`. -/
def filled (n : Fin 64) : State :=
  { ready with buf := Memory.fill [] (fun _ => 0x61) 0 n.val, bufferLength := n }

/-- READY with the given transfers on the port. -/
def withPort (ts : List Transfer) : State := { ready with port := ts }

/-- A field of the next state, if there is one. -/
def after {α : Type} (f : State → α) : Outcome → Option α
  | .next t => some (f t)
  | _ => none

/-- Why an outcome was refused. -/
def refusalOf : Outcome → Option Refusal
  | .refused r => some r
  | _ => none

/-- Working registers and block word for a single step: word `k` of the buffer is `x`. -/
def atWord (q : ABCD) (k : Nat) (x : Word) : State :=
  { ready with w := q, buf := Memory.writeLE [] (4 * k) 4 x.toNat }

/-! ## WellFormed: the one check, R75 -/

theorem wf_refuses_long_text :
    (Instr.appendText (List.replicate payloadBound 0x61)).wf = false := by
  rw [Instr.wf, List.length_replicate, decide_eq_false (Nat.lt_irrefl _)]

theorem wf_refuses_long_ascii :
    (Instr.appendAscii (List.replicate payloadBound 0x61)).wf = false := by
  rw [Instr.wf, List.length_replicate, decide_eq_false (Nat.lt_irrefl _)]

theorem wf_refuses_long_bytes :
    (Instr.appendBytes (List.replicate payloadBound 0x61)).wf = false := by
  rw [Instr.wf, List.length_replicate, decide_eq_false (Nat.lt_irrefl _)]

/-- The longest payload there is: any of `2^24 - 1` elements. -/
theorem wf_accepts_longest (bytes : List Byte) (h : bytes.length = 2 ^ 24 - 1) :
    (Instr.appendBytes bytes).wf = true := by
  rw [Instr.wf, h]; decide

/-- The bound is the one of R75. -/
theorem wf_bound : payloadBound = 16777216 := by decide

/-! ## Decoding: words written out from R72 to R74 and R81 -/

/-- `OP` = 0000. -/
theorem test_decode_reset :
    decode (.transfers [.header 0b00000000000000000000000000000000]) = .instr .reset [] := by decide

/-- `LEN` = 2, `OP` = 0001; the pair `D83D DE00`. -/
theorem test_decode_appendText :
    decode (.transfers [.header 0b00000000000000000000001000000001, .data 0xD83D, .data 0xDE00])
      = .instr (.appendText [0xD83D, 0xDE00]) [] := by decide

/-- `LEN` = 1, `OP` = 0010. -/
theorem test_decode_appendAscii :
    decode (.transfers [.header 0b00000000000000000000000100000010, .data 0x0141])
      = .instr (.appendAscii [0x0141]) [] := by decide

/-- `LEN` = 1, `OP` = 0011; bits 15:8 of the transfer are ignored. -/
theorem test_decode_appendBytes :
    decode (.transfers [.header 0b00000000000000000000000100000011, .data 0xFF41])
      = .instr (.appendBytes [0x41]) [] := by decide

/-- `RAW` = 1, `OP` = 0100, and `RAW` = 0. -/
theorem test_decode_finalize :
    decode (.transfers [.header 0b00000000000000000000000000010100]) = .instr (.finalize true) [] ∧
    decode (.transfers [.header 0b00000000000000000000000000000100]) = .instr (.finalize false) [] :=
  by decide

/-- `LEN` has 24 bits (95_test_vectors.md section 2.10). -/
theorem test_decode_longest :
    decodeHeader 0xFFFFFF03 = .ok (.appendBytes (2 ^ 24 - 1)) := by decide

theorem test_decode_load : decode (.microOp 0b1000000) = .instr .load [] := by decide

theorem test_decode_feedforward : decode (.microOp 0b1000001) = .instr .feedforward [] := by decide

/-- R81: index `i` is STEP `i`, all 64. -/
theorem test_decode_steps :
    (stepPairs0 ++ stepPairs1 ++ stepPairs2 ++ stepPairs3).all (fun p =>
      decode (.microOp (BitVec.ofNat 7 p.2)) = .instr p.1 []) = true := by decide +kernel

theorem test_decode_unused :
    decode (.microOp 0b1000010) = .illegal (.unusedMicroOp 0x42) ∧
    decode (.microOp 0b1111111) = .illegal (.unusedMicroOp 0x7F) := by decide

/-! ## Words of the opcode table -/

theorem test_table_words :
    decodeTableWord 32 0x00000000 = some .reset ∧
    decodeTableWord 32 0x00000001 = some (.appendText []) ∧
    decodeTableWord 32 0x00000202 = some (.appendAscii [0, 0]) ∧
    decodeTableWord 48 0x004100000103 = some (.appendBytes [0x41]) ∧
    decodeTableWord 32 0x00000014 = some (.finalize true) ∧
    decodeTableWord 8 0x40 = some .load ∧ decodeTableWord 7 0x3F = some .step63 ∧
    decodeTableWord 8 0x41 = some .feedforward ∧ decodeTableWord 8 0x42 = none ∧
    decodeTableWord 8 0xC0 = none := by decide +kernel

/-- RESET as the first instruction after power-on, an append command that is refused there, and LOAD. -/
theorem test_withFetchWord :
    after (·.phase) (step (State.reset.withFetchWord 32 0x00000000)) = some .ready ∧
    refusalOf (step (State.reset.withFetchWord 32 0x00000002)) = some (.wrongPhase .uninit) ∧
    after (·.w.a) (step (ready.withFetchWord 8 0x40)) = some 0x67452301 ∧
    after (·.seq) (step (ready.withFetchWord 8 0x40)) = some .cStep := by decide +kernel

/-! ## Words and round functions (section 2.1) -/

theorem test_rotl32 :
    rotl32 0x80000000 4 = 0x00000008 ∧ rotl32 0x12345678 22 = 0x9E048D15 ∧
    rotl32 0xD76AA4F7 7 = 0xB5527BEB := by decide

/-- One word through all eight bit combinations. -/
theorem test_roundFunctions :
    roundF 0xAAAAAAAA 0xCCCCCCCC 0xF0F0F0F0 = 0xD8D8D8D8 ∧
    roundG 0xAAAAAAAA 0xCCCCCCCC 0xF0F0F0F0 = 0xACACACAC ∧
    roundHf 0xAAAAAAAA 0xCCCCCCCC 0xF0F0F0F0 = 0x96969696 ∧
    roundI 0xAAAAAAAA 0xCCCCCCCC 0xF0F0F0F0 = 0x63636363 := by decide

/-! ## LOAD, STEP, FEEDFORWARD and COMPRESS (section 2.2) -/

theorem test_load : after (·.w) (exec .load ready)
    = some ⟨0x67452301, 0xEFCDAB89, 0x98BADCFE, 0x10325476⟩ := by decide +kernel

theorem test_step0 :
    after (·.w) (exec .step0
      (atWord ⟨0x67452301, 0xEFCDAB89, 0x98BADCFE, 0x10325476⟩ 0 0x80636261))
      = some ⟨0x10325476, 0xD6D117B4, 0xEFCDAB89, 0x98BADCFE⟩ := by decide +kernel

theorem test_step1 :
    after (·.w) (exec .step1
      (atWord ⟨0x10325476, 0xA5202774, 0xEFCDAB89, 0x98BADCFE⟩ 1 0))
      = some ⟨0x98BADCFE, 0xF59592DD, 0xA5202774, 0xEFCDAB89⟩ := by decide +kernel

theorem test_step15 : after (·.w) (exec .step15 (atWord ⟨0, 0, 0, 0⟩ 15 0))
    = some ⟨0, 0x08526D02, 0, 0⟩ := by decide +kernel

theorem test_step16 :
    after (·.w) (exec .step16
      (atWord ⟨0x11111111, 0x22222222, 0x33333333, 0x44444444⟩ 1 0xDEADBEEF))
      = some ⟨0x44444444, 0x442734C5, 0x22222222, 0x33333333⟩ := by decide +kernel

theorem test_step32 :
    after (·.w) (exec .step32
      (atWord ⟨0x11111111, 0x22222222, 0x33333333, 0x44444444⟩ 5 0xDEADBEEF))
      = some ⟨0x44444444, 0x73080B96, 0x22222222, 0x33333333⟩ := by decide +kernel

theorem test_step48 :
    after (·.w) (exec .step48
      (atWord ⟨0x11111111, 0x22222222, 0x33333333, 0x44444444⟩ 0 0xDEADBEEF))
      = some ⟨0x44444444, 0x3E40D53D, 0x22222222, 0x33333333⟩ := by decide +kernel

theorem test_step63 :
    after (·.w) (exec .step63
      (atWord ⟨0xFFFFFFFF, 0xFFFFFFFF, 0xFFFFFFFF, 0xFFFFFFFF⟩ 9 0xFFFFFFFF))
      = some ⟨0xFFFFFFFF, 0x71FD70D9, 0xFFFFFFFF, 0xFFFFFFFF⟩ := by decide +kernel

/-- R103, with the wrap of section 2.1: `0x67452301 + 0x98BADCFE`, `0xFFFFFFFF + 1`. -/
theorem test_feedforward :
    after (·.h) (exec .feedforward
      { ready with h := ⟨0x67452301, 0xFFFFFFFF, 0x80000000, 0⟩,
                   w := ⟨0x98BADCFE, 0x00000001, 0x80000000, 0⟩ })
      = some ⟨0xFFFFFFFF, 0, 0, 0⟩ := by decide +kernel

/-- K1, K5 and K6. -/
theorem test_compress :
    compressBytes ivHash (fun j => if j = 0 then 0x80 else 0)
      = ⟨0xD98C1DD4, 0x04B2008F, 0x980980E9, 0x7E42F8EC⟩ ∧
    compressBytes ivHash (fun j => BitVec.ofNat 8 j)
      = ⟨0x9144D9CA, 0xD901E4C9, 0x72FC5B38, 0x625FF51E⟩ ∧
    compressBytes ⟨0, 0, 0, 0⟩ (fun _ => 0)
      = ⟨0xF7CD1C97, 0xA5483681, 0x2B68D832, 0xF90CA639⟩ := by decide +kernel

/-- Of R31, a word of each table that no step test above reads. -/
theorem test_tables :
    additive 31 = 0x8D2A4C8A ∧ additive 47 = 0xC4AC5665 ∧ additive 62 = 0x2AD7D2BB ∧
    rotation 18 = 14 ∧ rotation 47 = 23 ∧ rotation 61 = 10 ∧ iv2 = 0x98BADCFE := by decide

/-! ## The encoder (section 2.3) -/

theorem test_encode :
    encodeUnit 0x007F none = .one [0x7F] ∧ encodeUnit 0x00E9 none = .one [0xC3, 0xA9] ∧
    encodeUnit 0x07FF none = .one [0xDF, 0xBF] ∧
    encodeUnit 0x20AC none = .one [0xE2, 0x82, 0xAC] ∧
    encodeUnit 0xD7FF none = .one [0xED, 0x9F, 0xBF] ∧
    encodeUnit 0xE000 none = .one [0xEE, 0x80, 0x80] ∧
    encodeUnit 0xFFFF none = .one [0xEF, 0xBF, 0xBF] := by decide

theorem test_encode_pairs :
    encodeUnit 0xD83D (some 0xDE00) = .pair [0xF0, 0x9F, 0x98, 0x80] ∧
    encodeUnit 0xDBFF (some 0xDFFF) = .pair [0xF4, 0x8F, 0xBF, 0xBF] ∧
    encodeUnit 0xD800 none = .error .highLast ∧
    encodeUnit 0xD83D (some 0xE000) = .error .highWithoutLow ∧
    encodeUnit 0xDC00 none = .error .loneLow := by decide

/-! ## The append commands -/

/-- S6: a valid pair appends exactly 4 bytes. -/
theorem test_appendText_pair :
    after (fun t => (t.bufferLength.val, t.buf.read 0, t.buf.read 3, t.out))
      (exec (.appendText [0xD83D, 0xDE00]) ready) = some (4, 0xF0, 0x80, [.ok]) := by decide +kernel

/-- Section 2.3: the pair at 0 and 1 is good, the unit after it a lone low surrogate. -/
theorem test_appendText_error :
    after (fun t => (t.phase, t.out)) (exec (.appendText [0xD83D, 0xDE00, 0xDE00]) ready)
      = some (.faulted, [.error 1]) := by decide +kernel

/-- Section 2.6: `FF41` is pushed as `41`. -/
theorem test_appendAscii :
    after (fun t => (t.bufferLength.val, t.buf.read 0)) (exec (.appendAscii [0xFF41]) ready)
      = some (1, 0x41) := by decide +kernel

/-- Section 2.7: the byte `3F` after 63 bytes drains; the byte after it starts the next block, and the stale bytes
stay. -/
theorem test_appendBytes_drain :
    after (fun t => (t.bufferLength.val, t.totalLength, t.h, t.buf.read 0, t.buf.read 63))
      (exec (.appendBytes [0x3F, 0xAA])
        { ready with buf := Memory.fill [] (fun j => BitVec.ofNat 8 j) 0 63, bufferLength := 63 })
      = some (1, 64, ⟨0x9144D9CA, 0xD901E4C9, 0x72FC5B38, 0x625FF51E⟩, 0xAA, 0x3F) := by
  decide +kernel

/-! ## FINALIZE (sections 1, 2.4, 2.5) and the status words of R78 -/

/-- The empty message, in hex: S1. -/
theorem test_finalize_hex :
    after (·.out) (exec (.finalize false) ready) = some [.digestHex
      [0x64, 0x34, 0x31, 0x64, 0x38, 0x63, 0x64, 0x39, 0x38, 0x66, 0x30, 0x30, 0x62, 0x32, 0x30, 0x34,
       0x65, 0x39, 0x38, 0x30, 0x30, 0x39, 0x39, 0x38, 0x65, 0x63, 0x66, 0x38, 0x34, 0x32, 0x37, 0x65]]
    := by decide +kernel

/-- Bytes `61 62 63` with a counter of `2^32`: the high length word is 8 (section 2.4). -/
theorem test_finalize_high_length :
    after (fun t => (t.phase, t.out)) (exec (.finalize true)
      { ready with buf := [(0, 0x61), (1, 0x62), (2, 0x63)], bufferLength := 3,
                   totalLength := 0x100000000 })
      = some (.spent, [.digestRaw ⟨0x73A3A1DA, 0x254DB4AF, 0x2045D640, 0x823CC213⟩]) := by
  decide +kernel

/-- 55 and 56 bytes `61`, on the two sides of the second padding block: `ef1772b6...` and `3b0c8ac7...`. -/
theorem test_padding_edge :
    (finalDigest (filled 55)).a = 0xB67217EF ∧ (padAndCompress (filled 55)).h.a = 0xB67217EF ∧
    (finalDigest (filled 56)).a = 0xC78A0C3B ∧ (padAndCompress (filled 56)).h.a = 0xC78A0C3B := by
  decide +kernel

/-- Section 2.4: `L = 2^61 + 2` wraps, `L = 2^29` carries into the high word. -/
theorem test_bitLength :
    bitLength 0x2000000000000002 = 0x10 ∧ bitLength 0x20000000 = 0x100000000 := by decide

/-- Section 2.8, first row. -/
theorem test_hexWord :
    hexWord 0x01234567 = [0x36, 0x37, 0x34, 0x35, 0x32, 0x33, 0x30, 0x31] := by decide

/-! ## RESET and the phases (section 2.9) -/

theorem test_reset_from_spent :
    after (fun t => (t.phase, t.h, t.bufferLength.val, t.totalLength, t.out))
      (exec .reset { filled 5 with phase := .spent, totalLength := 64 })
      = some (.ready, ⟨0x67452301, 0xEFCDAB89, 0x98BADCFE, 0x10325476⟩, 0, 0, [.ok]) := by
  decide +kernel

theorem test_refused_outside_ready :
    refusalOf (exec (.appendText [0xD800]) { ready with phase := .spent })
      = some (.wrongPhase .spent) ∧
    refusalOf (exec (.finalize false) { ready with phase := .faulted })
      = some (.wrongPhase .faulted) := by decide +kernel

/-- R189: a header inside a payload. -/
theorem test_step_overlap :
    refusalOf (step (withPort [.header 0x00000203, .data 0x61, .header 0]))
      = some (.illegal .overlappingCommand) := by decide +kernel

/-- A data transfer that no header announces (log 8). -/
theorem test_step_stray :
    refusalOf (step (withPort [.data 0x61])) = some (.illegal .strayData) := by decide +kernel

/-! ## One-shot sequences (R155, R75, R127) -/

/-- With two units a command, a pair that would be cut goes whole into the next one. -/
theorem test_textPieces :
    textPieces 2 [0x41, 0xD83D, 0xDE00, 0x42] = [[0x41], [0xD83D, 0xDE00], [0x42]] ∧
    textPieces 2 [0xD83D, 0xDE00, 0x42] = [[0xD83D, 0xDE00], [0x42]] ∧
    textPieces 2 [] = [[]] ∧
    asciiPieces 2 [0x41, 0xD83D, 0xDE00] = [[0x41, 0xD83D], [0xDE00]] := by decide +kernel

/-- `HASH ""` answers S1; after an `ERROR` nothing more is issued. -/
theorem test_hashText :
    after (·.out) (hashText [] true State.reset)
      = some [.ok, .ok, .digestRaw ⟨0xD98C1DD4, 0x04B2008F, 0x980980E9, 0x7E42F8EC⟩] ∧
    after (fun t => (t.phase, t.out)) (hashText [0x61, 0xD800] true State.reset)
      = some (.faulted, [.ok, .error 1]) ∧
    after (·.out) (issueUntilError [.appendText [0xD800], .appendText [0x61], .finalize true] ready)
      = some [.error 1] := by decide +kernel

/-! ## Witnesses: states and operands that meet the statements' hypotheses -/

theorem witness_EncodedInstructionDecodesBack :
    Instr.load.wf = true ∧ (Instr.finalize true).wf = true ∧ (Instr.appendText []).wf = true ∧
    (Instr.appendAscii [0xFFFF]).wf = true ∧ (Instr.appendBytes [0xFF, 0x00]).wf = true := by decide

/-- Each row at its smallest and its largest word. -/
theorem witness_HeaderSelectsItsTableRow :
    (0 : Word) &&& 0xFFFFFFFF = 0 ∧ (0x00000001 : Word) &&& 0xFF = 1 ∧
    (0xFFFFFF01 : Word) &&& 0xFF = 1 ∧ (0xFFFFFF02 : Word) &&& 0xFF = 2 ∧
    (0xFFFFFF03 : Word) &&& 0xFF = 3 ∧ (0x00000004 : Word) &&& 0xFFFFFFEF = 4 ∧
    (0x00000014 : Word) &&& 0xFFFFFFEF = 4 := by decide

/-- The four cases at their edges, and a step that meets one. -/
theorem witness_IllegalHeaderIsRefused :
    decodeHeader 0x00000005 = .error (.reservedOp 5) ∧
    decodeHeader 0xFFFFFFFF = .error (.reservedOp 15) ∧
    decodeHeader 0x00000020 = .error .reservedBits ∧
    decodeHeader 0x000000E4 = .error .reservedBits ∧
    decodeHeader 0x00000010 = .error .rawOutsideFinalize ∧
    decodeHeader 0x00000013 = .error .rawOutsideFinalize ∧
    decodeHeader 0x00000100 = .error .lengthNotAllowed ∧
    decodeHeader 0xFFFFFF14 = .error .lengthNotAllowed ∧
    (withPort [.header 5]).seq = .cIdle ∧ (withPort [.header 5]).port = .header 5 :: [] := by
  decide +kernel

theorem witness_ByteTransferHighBitsIgnored :
    (0x00000103 : Word).toNat % 256 = 3 ∧ (0x00000103 : Word).toNat / 256 = [(0xFF41 : Half)].length ∧
    [(0xFF41 : Half)].map (fun e => e.toNat % 256) = [(0x0041 : Half)].map (fun e => e.toNat % 256) :=
  by decide

theorem witness_StepRunsTheDecodedCommand :
    (withPort [.header 0x103, .data 0x61, .header 4]).seq = .cIdle ∧
    decode (.transfers (withPort [.header 0x103, .data 0x61, .header 4]).port)
      = .instr (.appendBytes [0x61]) [.header 4] := by decide +kernel

/-- The three sequencer states, `C_STEP` at 0 and 63. -/
theorem witness_StepRunsTheSequencedMicroOp :
    (startCompress ready).seq = .cLoad ∧ decode (.microOp 0x40) = .instr .load [] ∧
    { ready with seq := .cStep }.seq = .cStep ∧
    decode (.microOp (BitVec.ofNat 7 0)) = .instr .step0 [] ∧
    { ready with seq := .cStep, i := 63 }.i.val < 64 ∧
    decode (.microOp (BitVec.ofNat 7 63)) = .instr .step63 [] ∧
    { ready with seq := .cAdd }.seq = .cAdd ∧ decode (.microOp 0x41) = .instr .feedforward [] := by
  decide +kernel

/-- Clause by clause; the second with a payload that has not arrived, the third at the first and at a
later unit. -/
theorem witness_ChecksAreMadeInOrder :
    decodeHeader 0x00000105 = .error (.reservedOp 5) ∧
    (State.reset.phase ≠ .ready ∧ decodeHeader 0x00000203 = .ok (.appendBytes 2) ∧
      { State.reset with port := [.header 0x203] }.port = .header 0x203 :: []) ∧
    (ready.phase = .ready ∧ encodeText [] = .ok [] ∧
      encodeUnit 0xDC00 ([] : List Half).head? = .error .loneLow) ∧
    encodeText [0x41] = .ok [0x41] ∧
    encodeUnit 0xD83D [(0xDBFF : Half), 0x42].head? = .error .highWithoutLow := by decide +kernel

/-- No transfer, and for each command a payload one element short. -/
theorem witness_IdleEngineHoldsItsState :
    ready.seq = .cIdle ∧ ready.port = [] ∧ ready.phase = .ready ∧
    decodeHeader 0x00000101 = .ok (.appendText 1) ∧
    decodeHeader 0x00000202 = .ok (.appendAscii 2) ∧
    decodeHeader 0x00000203 = .ok (.appendBytes 2) ∧
    (withPort [.header 0x203, .data 0x61]).port
      = .header 0x203 :: [(0x61 : Half)].map .data ∧ [(0x61 : Half)].length < 2 := by decide +kernel

theorem witness_PowerOnNeedsReset :
    isCommand (.finalize false) = true ∧ Instr.finalize false ≠ .reset ∧
    isCommand (.appendText []) = true ∧ Instr.appendText [] ≠ .reset := by decide

/-- RESET out of each of the two phases. -/
theorem witness_ResetIsIdempotent :
    isCommand .reset = true ∧ { ready with phase := .spent }.phase = .spent ∧
    after (·.phase) (exec .reset { ready with phase := .spent }) = some .ready ∧
    { ready with phase := .faulted }.phase = .faulted ∧
    after (·.phase) (exec .reset { ready with phase := .faulted }) = some .ready := by decide +kernel

theorem witness_HistoryBeforeResetIsInvisible :
    ∀ i ∈ [Instr.appendBytes [1], .appendText [0xD800], .finalize true], isCommand i = true := by
  decide

/-- Each branch: a phase that lets a command run, one that does not, and a text of each kind. -/
theorem witness_PhaseTransitionsAreTheOnlyOnes :
    isCommand .reset = true ∧ isCommand (.appendAscii [0x61]) = true ∧
    after (·.phase) (exec (.appendAscii [0x61]) ready) = some .ready ∧
    after (·.phase) (exec (.appendText [0xDFFF]) ready) = some .faulted ∧
    refusalOf (exec (.appendAscii [0x61]) State.reset) = some (.wrongPhase .uninit) := by
  decide +kernel

/-- The three clauses, the cut payload one element short and wholly absent. -/
theorem witness_UndefinedCommandsAreRefused :
    isCommand (.appendBytes []) = true ∧ State.reset.phase ≠ .ready ∧
    decodeHeader 0x00000023 = .error .reservedBits ∧
    decodeHeader 0x00000201 = .ok (.appendText 2) ∧
    (withPort [.header 0x201, .data 0x61, .header 0]).port
      = .header 0x201 :: [(0x61 : Half)].map .data ++ .header 0 :: [] ∧
    (withPort [.header 0x201, .header 0]).port
      = .header 0x201 :: ([] : List Half).map .data ++ .header 0 :: [] ∧
    [(0x61 : Half)].length < 2 := by decide +kernel

/-- The last cursor below the block edge, and the edge. -/
theorem witness_PushByteFillsAndDrains :
    (filled 0).bufferLength.val < 63 ∧ (filled 62).bufferLength.val < 63 ∧
    (filled 63).bufferLength.val = 63 := by decide +kernel

theorem witness_AppendBytesPushesEachByte :
    (0xFFFFFF03 : Word).toNat % 256 = 3 ∧ (filled 63).phase = .ready ∧ State.reset.phase ≠ .ready ∧
    (∀ k, k < [(1 : Byte), 2].length → ((filled 63).bufferLength.val + k) % 64 ≠ 1) := by
  decide +kernel

/-- A payload that stops one short of the edge, with an offset in each of the two ranges at its ends. -/
theorem witness_ShortAppendLeavesTheRest :
    (filled 61).phase = .ready ∧ (filled 61).bufferLength.val + [(1 : Byte), 2].length < 64 ∧
    (filled 61).bufferLength.val ≤ 62 ∧ 62 < (filled 61).bufferLength.val + [(1 : Byte), 2].length ∧
    60 < (filled 61).bufferLength.val ∧ (filled 61).bufferLength.val + [(1 : Byte), 2].length ≤ 63 :=
  by decide +kernel

theorem witness_AppendAsciiTruncatesEachCode :
    (0x00000002 : Word).toNat % 256 = 2 ∧ ready.phase = .ready ∧
    { ready with phase := .faulted }.phase ≠ .ready := by decide +kernel

theorem witness_TextAndAsciiPathsAreBytePaths :
    encodeText [0x00E9] = .ok [0xC3, 0xA9] ∧
    (∀ u ∈ [(0x0000 : Half), 0x007F], u.toNat < 0x80) := ⟨by decide +kernel, by simp⟩

theorem witness_WellPairedTextCompletes :
    ready.phase = .ready ∧ wellPaired [0xD7FF, 0xD800, 0xDC00, 0xDBFF, 0xDFFF, 0xE000] = true ∧
    wellPaired [] = true := by decide +kernel

/-- The error payloads of section 2.3. -/
theorem witness_LoneSurrogateTakesEncodingError :
    ready.phase = .ready ∧ wellPaired [0xD800] = false ∧ wellPaired [0x41, 0xD83D] = false ∧
    wellPaired [0xD83D, 0xDBFF] = false ∧ wellPaired [0xD800, 0xD800, 0xDC00] = false ∧
    wellPaired [0xDE00, 0xD83D] = false ∧ wellPaired [0xD83D, 0xDE00, 0xDE00] = false ∧
    isCommand (.finalize true) = true := by decide +kernel

theorem witness_SplitPairIsAnError :
    ready.phase = .ready ∧ isHigh 0xD800 = true ∧ isHigh 0xDBFF = true ∧ isHigh 0xDC00 = false ∧
    isLow 0xDC00 = true ∧ isLow 0xDFFF = true ∧ isLow 0xE000 = false := by decide +kernel

/-- Each row of the table at the ends of its range. -/
theorem witness_EncoderFollowsTheUtf8Table :
    (0x007F : Half).toNat < 0x80 ∧ 0x80 ≤ (0x0080 : Half).toNat ∧ (0x07FF : Half).toNat < 0x800 ∧
    0x800 ≤ (0x0800 : Half).toNat ∧ (0xD7FF : Half).toNat < 0xD800 ∧ 0xE000 ≤ (0xE000 : Half).toNat ∧
    0xD800 ≤ (0xD800 : Half).toNat ∧ (0xDBFF : Half).toNat ≤ 0xDBFF ∧
    (0xDBFF : Half).toNat < 0xDC00 ∧ 0xDFFF < (0xE000 : Half).toNat ∧
    0xDC00 ≤ (0xDC00 : Half).toNat ∧ (0xDFFF : Half).toNat ≤ 0xDFFF ∧
    0x10FFFF = 0x10000 + ((0xDBFF : Half).toNat - 0xD800) * 0x400 + ((0xDFFF : Half).toNat - 0xDC00) :=
  by decide

theorem witness_EncodedBytesStandForTheirCodePoint :
    encodeUnit 0xFFFF none = .one [0xEF, 0xBF, 0xBF] ∧
    encodeUnit 0x0080 (some 0xD800) = .one [0xC2, 0x80] ∧
    encodeUnit 0xD800 (some 0xDC00) = .pair [0xF0, 0x90, 0x80, 0x80] := by decide

theorem witness_TextLengthIsCountedInBytes :
    (filled 63).phase = .ready ∧ encodeText [0xD800, 0xDC00] = .ok [0xF0, 0x90, 0x80, 0x80] ∧
    isHigh 0xD800 = true ∧ encodeText [0x0800] = .ok [0xE0, 0xA0, 0x80] := by decide +kernel

theorem witness_EmptyAppendChangesNothing : (filled 63).phase = .ready := by decide +kernel

/-- The three kinds in one list; a text cut before and after a surrogate pair, and at its ends. -/
theorem witness_ChunkingDoesNotMatter :
    (filled 63).phase = .ready ∧
    messageOf [.appendBytes [0x68], .appendText [0x65, 0x6C], .appendAscii [], .appendAscii [0xFF6C, 0x6F]]
      = some [0x68, 0x65, 0x6C, 0x6C, 0x6F] ∧
    encodeText [0x41, 0xD83D, 0xDE00, 0x42] = .ok [0x41, 0xF0, 0x9F, 0x98, 0x80, 0x42] ∧
    ∀ n ∈ [0, 1, 3, 4],
      (([0x41, 0xD83D, 0xDE00, 0x42] : List Half).take n).getLast?.all fun u =>
        (([0x41, 0xD83D, 0xDE00, 0x42] : List Half).drop n).head?.all fun v =>
          !isHigh u || !isLow v := by decide +kernel

/-- Two READY states that differ in a stale byte only, the one at the cursor. -/
theorem witness_StaleBytesAreNeverRead :
    isCommand (.finalize true) = true ∧ (filled 2).phase = .ready ∧
    SameContext (filled 2) { filled 2 with buf := (filled 2).buf.write 2 0xFF } ∧
    (filled 2).buf.read 2 ≠ ((filled 2).buf.write 2 0xFF).read 2 := by
  unfold SameContext
  decide +kernel

theorem witness_EveryStepComputesItsRow :
    (Instr.step0, 0) ∈ stepPairs0 ++ stepPairs1 ++ stepPairs2 ++ stepPairs3 ∧
    (Instr.step63, 63) ∈ stepPairs0 ++ stepPairs1 ++ stepPairs2 ++ stepPairs3 := by decide +kernel

/-- The first and the last of the 66 sequencer states. -/
theorem witness_SequencerRunsOneCompress :
    ready.seq = .cIdle ∧ seqIndex (startCompress ready) = some 0x40 ∧ 0 < 66 ∧ 65 < 66 := by
  decide +kernel

theorem witness_CommandsBeginAndEndIdle :
    isCommand .reset = true ∧ after (·.seq) (exec .reset ready) = some .cIdle ∧
    (withPort [.header 0]).seq = .cIdle ∧ after (·.seq) (step (withPort [.header 0])) = some .cIdle := by
  decide +kernel

theorem witness_RoundStepIsABijection : 4 ≤ rotation 32 ∧ rotation 35 ≤ 23 ∧ rotation 35 = 23 := by
  decide

/-- The ends of the four groups. -/
theorem witness_RoundFunctionsBitByBit :
    groupFn (0 / 16) = .F ∧ groupFn (15 / 16) = .F ∧ groupFn (16 / 16) = .G ∧ groupFn (31 / 16) = .G ∧
    groupFn (32 / 16) = .Hf ∧ groupFn (47 / 16) = .Hf ∧ groupFn (48 / 16) = .I ∧
    groupFn (63 / 16) = .I := by decide

theorem witness_WordSelectionSequences :
    wordIndex (16 * 0 + 0) = 0 ∧ wordIndex (16 * 3 + 15) = 9 := by decide

theorem witness_WordArithmeticWraps :
    rotl32 0x80000001 1 = 0x00000003 ∧ rotl32 0x80000001 31 = 0xC0000000 := by decide

theorem witness_FinalizeAnswersTheDigest :
    (filled 55).phase = .ready ∧ (filled 56).phase = .ready ∧ State.reset.phase ≠ .ready := by
  decide +kernel

/-- The ends of the length field: byte 55 is not of it, bytes 56 and 63 are (`L = 2^53 + 1`). -/
theorem witness_LengthFieldIsExact :
    (writeLength (bitLength 0x20000000000001) (filled 56)).buf.read 55 = 0x61 ∧
    (writeLength (bitLength 0x20000000000001) (filled 56)).buf.read 56 = 0x08 ∧
    (writeLength (bitLength 0x20000000000001) (filled 56)).buf.read 63 = 0x01 := by decide +kernel

/-- The first and the last byte of the digest (section 2.8, third row). -/
theorem witness_HexDigestOrder :
    (hexDigest ⟨0x0000000F, 0x000000F0, 0x0F000000, 0xF0000000⟩).getD (8 * 0 + 2 * 0 + 1) 0 = 0x66 ∧
    (hexDigest ⟨0x0000000F, 0x000000F0, 0x0F000000, 0xF0000000⟩).getD (8 * 3 + 2 * 3) 0 = 0x66 := by
  decide

theorem witness_OneResponsePerCommand :
    isCommand (.finalize true) = true ∧
    after (·.out) (exec (.finalize true) ready)
      = some [.digestRaw ⟨0xD98C1DD4, 0x04B2008F, 0x980980E9, 0x7E42F8EC⟩] := by decide +kernel

theorem witness_ResponsesAreNeverChanged :
    after (·.out) (step { withPort [.header 0] with out := [.ok] }) = some [.ok, .ok] := by
  decide +kernel

/-- The empty message and one that has crossed a block edge. -/
theorem witness_EngineHoldsTheMessage :
    Holds [] ready ∧ Holds [0x61, 0x61] (filled 2) ∧ pushedBytes (.appendAscii [0xFF41]) = some [0x41] := by
  unfold Holds
  decide +kernel

theorem witness_DigestLaw :
    messageOf [] = some [] ∧
    messageOf [.appendText [0x00E9], .appendBytes [0xFF]] = some [0xC3, 0xA9, 0xFF] := by decide +kernel

/-- The empty text, the longest one that is one command, and two of one unit more, with a pair at the bound:
without a lone surrogate and with lone ones before the pair. -/
theorem witness_LongTextIsCutIntoCommands :
    ([] : List Half).length ≤ 2 ^ 24 - 1 ∧
    (List.replicate (2 ^ 24 - 1) (0x61 : Half)).length ≤ 2 ^ 24 - 1 ∧
    textPieces payloadMax (List.replicate (payloadMax - 1) 0x61 ++ [0xD83D, 0xDE00])
      = [] ++ List.replicate (payloadMax - 1) 0x61 :: [0xD83D, 0xDE00] :: [] ∧
    textPieces payloadMax (List.replicate (payloadMax - 1) 0xDC00 ++ [0xD83D, 0xDE00])
      = [] ++ List.replicate (payloadMax - 1) 0xDC00 :: [0xD83D, 0xDE00] :: [] :=
  ⟨Nat.zero_le _, Nat.le_of_eq List.length_replicate,
    textPieces_pair_at_bound (by decide) _ _ _ (by decide) (by decide),
    textPieces_pair_at_bound (by decide) _ _ _ (by decide) (by decide)⟩

theorem witness_HashPseudoCommand :
    encodeText [0x61] = .ok [0x61] ∧ encodeText [0x61, 0xD800] = .error .highLast := by decide +kernel

theorem witness_HashAsciiPseudoCommand : ∀ c ∈ [(0x0000 : Half), 0x007F], c.toNat < 0x80 := by
  simp

/-- In the idle sequencer and in `C_STEP` at its last index. -/
theorem witness_EveryStepKeepsTheInvariant :
    (withPort [.header 0]).Inv ∧ after (·.phase) (step (withPort [.header 0])) = some .ready ∧
    State.Inv { filled 3 with seq := .cStep, i := 63 } ∧
    after (·.seq) (step { filled 3 with seq := .cStep, i := 63 }) = some .cAdd :=
  ⟨by unfold State.Inv; decide +kernel, by decide +kernel, by unfold State.Inv; decide +kernel,
    by decide +kernel⟩

theorem witness_CanonicalBuffersAreEqual :
    Memory.wf [(0, 0x61), (63, 0xFF)] ∧
    (∀ j, j < 64 → Memory.read [(0, 0x61), (63, 0xFF)] j
      = Memory.read ((Memory.write [] 63 0xFF).write 0 0x61) j) := by decide +kernel

/-- The first byte of the first word and the last of the last. -/
theorem witness_WordViewIsLittleEndian :
    (Memory.write [] 63 0xAB).word 15 = 0xAB000000 ∧ (Memory.write [] 0 0xAB).word 0 = 0xAB := by
  decide +kernel

end Sys2Proof.Tests
end

section
/-! PROOF. The arithmetic of 32-bit words (R8): the rotation as arithmetic on values, and O39. -/

namespace Sys2Proof.Proofs

open Sys2Proof Sys2Proof.Machine

/-- R8: in a rotation the bits shifted left leave the `s` low bits clear, and the bits brought back fill just those, so
the `or` of the two parts is their sum. -/
theorem rotl32_toNat (x : Word) {s : Nat} (hs : s ≤ 32) :
    (rotl32 x s).toNat = x.toNat * 2 ^ s % 2 ^ 32 + x.toNat / 2 ^ (32 - s) := by
  have hpow : 2 ^ 32 = 2 ^ (32 - s) * 2 ^ s := by rw [← Nat.pow_add, Nat.sub_add_cancel hs]
  have hhigh : x.toNat * 2 ^ s % 2 ^ 32 = (x.toNat % 2 ^ (32 - s)) <<< s := by
    rw [hpow, Nat.mul_mod_mul_right, Nat.shiftLeft_eq]
  have hlow : x.toNat / 2 ^ (32 - s) < 2 ^ s := Nat.div_lt_of_lt_mul (hpow ▸ x.isLt)
  calc (rotl32 x s).toNat
      = x.toNat * 2 ^ s % 2 ^ 32 ||| x.toNat / 2 ^ (32 - s) := by
        simp [rotl32, Nat.shiftLeft_eq, Nat.shiftRight_eq_div_pow]
    _ = x.toNat * 2 ^ s % 2 ^ 32 + x.toNat / 2 ^ (32 - s) := by
        rw [hhigh, Nat.shiftLeft_add_eq_or_of_lt hlow]

/-- Settles O39: the rotation by `rotl32_toNat`, the other operations by the word type's own laws. -/
theorem wordArithmeticWraps : Obligations.WordArithmeticWraps := by
  intro x y
  refine ⟨x.toNat_add y, x.toNat_not, fun j => ?_, fun s _ hs => ?_⟩
  · exact ⟨BitVec.getLsbD_and, BitVec.getLsbD_or, BitVec.getLsbD_xor⟩
  · exact rotl32_toNat x (Nat.le_trans hs (by decide))

end Sys2Proof.Proofs
end

section
/-! PROOF. The state's invariants and transitions (spec/10_state.md): the message a READY engine holds (O45), the phases
(O14), the stale bytes of the buffer (O29) and the responses (O44). -/

namespace Sys2Proof.Proofs

open Sys2Proof Sys2Proof.Machine

/-! ## The message -/

/-- Settles O45: RESET leaves a fresh context, and an append without error is the push of its bytes, which keeps
`Holds` byte by byte (`holds_pushByte`). -/
theorem engineHoldsTheMessage : Obligations.EngineHoldsTheMessage := by
  refine ⟨fun s => ⟨_, exec_reset s, holds_respond (holds_freshContext s) .ok⟩, ?_⟩
  intro i m p s hholds hpushed
  exact ⟨_, exec_append hholds.1 hpushed, holds_respond (holds_pushBytes hholds p) .ok⟩

/-! ## The phases -/

/-- The row of the transition table of R29 for a command that completes. -/
def TransitionRow (i : Instr) (s t : State) : Prop :=
  match i with
  | .reset => t.phase = .ready
  | .finalize _ => s.phase = .ready ∧ t.phase = .spent
  | .appendText units => s.phase = .ready ∧
      ((∃ bs, encodeText units = .ok bs) ∧ t.phase = .ready ∨
        (∃ c, encodeText units = .error c) ∧ t.phase = .faulted)
  | _ => s.phase = .ready ∧ t.phase = .ready

theorem encodeText_of_pushedBytes {us : List Half} {p : List Byte}
    (h : pushedBytes (.appendText us) = some p) : encodeText us = .ok p := by
  cases he : encodeText us with
  | ok bs => simpa [pushedBytes, he] using h
  | error c => simp [pushedBytes, he] at h

/-- An append command without error stays in READY. -/
theorem transitionRow_of_pushedBytes {i : Instr} {p : List Byte} {s t : State}
    (hi : pushedBytes i = some p) (hs : s.phase = .ready) (ht : t.phase = .ready) :
    TransitionRow i s t := by
  cases i with
  | appendText us => exact ⟨hs, .inl ⟨⟨p, encodeText_of_pushedBytes hi⟩, ht⟩⟩
  | appendAscii cs => exact ⟨hs, ht⟩
  | appendBytes bs => exact ⟨hs, ht⟩
  | _ => simp [pushedBytes] at hi

theorem transitionRow_of_exec {i : Instr} {s t : State} (hi : isCommand i = true)
    (h : exec i s = .next t) : TransitionRow i s t := by
  rcases exec_command_cases hi h with ⟨rfl, rfl⟩ | ⟨hs, p, hp, rfl⟩ |
    ⟨hs, us, c, p, rfl, he, rfl⟩ | ⟨hs, raw, rfl, rfl⟩
  · exact freshContext_phase s
  · exact transitionRow_of_pushedBytes hp hs (by rw [respond_phase, pushBytes_phase, hs])
  · exact ⟨hs, .inr ⟨⟨c, he⟩, takeEncodingError_phase _⟩⟩
  · exact ⟨hs, spendContext_phase (padAndCompress s)⟩

/-- In READY every command completes. -/
theorem exec_ready_completes {i : Instr} {s : State} (hi : isCommand i = true)
    (hs : s.phase = .ready) : ∃ t, exec i s = .next t := by
  cases i with
  | reset => exact ⟨_, exec_reset s⟩
  | appendText us => exact ⟨_, exec_appendText hs us⟩
  | appendAscii cs => exact ⟨_, exec_appendAscii hs cs⟩
  | appendBytes bs => exact ⟨_, exec_appendBytes hs bs⟩
  | finalize raw => exact ⟨_, exec_finalize hs raw⟩
  | _ => simp [isCommand] at hi

/-- A command is refused by the phase check only (R169). -/
theorem refusal_of_exec {i : Instr} {s : State} {r : Refusal} (hi : isCommand i = true)
    (h : exec i s = .refused r) : i ≠ .reset ∧ s.phase ≠ .ready ∧ r = .wrongPhase s.phase := by
  have hreset : i ≠ .reset := by
    rintro rfl
    cases (exec_reset s).symm.trans h
  have hphase : s.phase ≠ .ready := by
    intro hs
    obtain ⟨t, ht⟩ := exec_ready_completes hi hs
    cases ht.symm.trans h
  refine ⟨hreset, hphase, ?_⟩
  rw [exec_refused hi hreset hphase] at h
  exact (Host.Outcome.refused.inj h).symm

/-- Settles O14: the codes by their definition; a command that completes by `transitionRow_of_exec`, one that does not
by `refusal_of_exec`. -/
theorem phaseTransitionsAreTheOnlyOnes : Obligations.PhaseTransitionsAreTheOnlyOnes := by
  refine ⟨rfl, rfl, rfl, rfl, fun i s hi => ?_⟩
  cases h : exec i s with
  | next t => exact transitionRow_of_exec hi h
  | refused r => exact refusal_of_exec hi h
  | fault f => cases f

/-! ## Stale bytes -/

/-- From two states a command gives one answer: it completes in both, with the same response and phase, and leaves
contexts that agree where they are defined. -/
def SameAnswer (i : Instr) (s s' : State) : Prop :=
  ∃ t t' r, exec i s = .next t ∧ exec i s' = .next t' ∧
    t.out = s.out ++ [r] ∧ t'.out = s'.out ++ [r] ∧
    (t.phase = .ready → SameContext t t') ∧ t.phase = t'.phase

theorem sameAnswer_reset (s s' : State) : SameAnswer .reset s s' := by
  refine ⟨_, _, .ok, exec_reset s, exec_reset s', rfl, rfl, fun _ => ?_, rfl⟩
  exact ⟨rfl, rfl, rfl, rfl, fun j hj => absurd hj (Nat.not_lt_zero j)⟩

section
variable {s s' : State} (hs : s.phase = .ready) (h : SameContext s s')
include hs h

theorem sameAnswer_append {i : Instr} {p : List Byte} (hi : pushedBytes i = some p) :
    SameAnswer i s s' := by
  have hs' : s'.phase = .ready := h.1.symm.trans hs
  have hc : SameContext (respond .ok (pushBytes p s)) (respond .ok (pushBytes p s')) :=
    sameContext_pushBytes p h
  exact ⟨_, _, .ok, exec_append hs hi, exec_append hs' hi, by simp, by simp, fun _ => hc, hc.1⟩

/-- The units the encoder examines are the command's own, so it errs in both states; FAULTED defines no context. -/
theorem sameAnswer_encodingError {us : List Half} {c : EncodingCause}
    (he : encodeText us = .error c) : SameAnswer (.appendText us) s s' := by
  have hs' : s'.phase = .ready := h.1.symm.trans hs
  obtain ⟨p, hp⟩ := appendUnits_of_error he s
  obtain ⟨p', hp'⟩ := appendUnits_of_error he s'
  refine ⟨_, _, .error encodingErrorCode, exec_appendText hs us, exec_appendText hs' us, ?_⟩
  rw [hp, hp']
  exact ⟨by simp, by simp, by simp, rfl⟩

/-- The padding overwrites every byte from the cursor on, so the digest is one of the defined context. -/
theorem sameAnswer_finalize (raw : Bool) : SameAnswer (.finalize raw) s s' := by
  obtain ⟨hphase, hh, hl, ht, hb⟩ := h
  have hs' : s'.phase = .ready := hphase.symm.trans hs
  refine ⟨_, _, digestResponse raw (finalDigest s), exec_finalize hs raw, exec_finalize hs' raw, ?_⟩
  rw [finalDigest_congr hh hl ht hb]
  exact ⟨by simp, by simp, by simp, rfl⟩

end

/-- Settles O29, command by command: a push reads nothing at or above the cursor (`sameContext_pushBytes`), nor does the
digest (`finalDigest_congr`). -/
theorem staleBytesAreNeverRead : Obligations.StaleBytesAreNeverRead := by
  intro i s s' hi hs h
  change SameAnswer i s s'
  cases i with
  | reset => exact sameAnswer_reset s s'
  | appendBytes bs => exact sameAnswer_append hs h rfl
  | appendAscii cs => exact sameAnswer_append hs h rfl
  | appendText us =>
    cases he : encodeText us with
    | ok bs => exact sameAnswer_append hs h (p := bs) (by simp [pushedBytes, he])
    | error c => exact sameAnswer_encodingError hs h he
  | finalize raw => exact sameAnswer_finalize hs h raw
  | _ => simp [isCommand] at hi

/-! ## Responses -/

/-- The sequencer gives no response. -/
@[simp] theorem advanceSeq_out (s : State) : (advanceSeq s).out = s.out := by
  unfold advanceSeq
  split
  · rfl
  · rfl
  · split <;> rfl
  · rfl

/-- Settles O44: a command adds one response at the end; a micro-operation and an idle step add none. -/
theorem responsesAreNeverChanged : Obligations.ResponsesAreNeverChanged := by
  intro s t h
  rcases step_cases h with ⟨-, i, rest, hi, hexec⟩ | ⟨-, w, hash, rfl⟩ | rfl
  · obtain ⟨r, hr⟩ := exec_command_out hi hexec
    exact ⟨[r], hr.symm⟩
  · exact ⟨[], by simp⟩
  · exact ⟨[], by simp⟩

end Sys2Proof.Proofs
end

section
/-! PROOF. The word view of the buffer (spec/20_memory.md, R51 and R54): O55. -/

namespace Sys2Proof.Proofs

open Sys2Proof Sys2Proof.Machine

/-- Above its low byte, a concatenation has the byte fields of its high part. -/
theorem extractByte_append_succ {n : Nat} (hi : BitVec n) (lo : Byte) (o : Nat) :
    (hi ++ lo).extractLsb' (8 * (o + 1)) 8 = hi.extractLsb' (8 * o) 8 :=
  BitVec.extractLsb'_append_eq_of_le (by omega)

/-- R54: the byte at offset `4k + o` is bits `8o+7:8o` of `X[k]`: each step past a lower byte of the word's
concatenation is one `extractByte_append_succ`. -/
theorem word_extractByte (m : Memory) (k : Nat) {o : Nat} (ho : o < 4) :
    (m.word k).extractLsb' (8 * o) 8 = m.read (4 * k + o) := by
  rw [Memory.word_eq]
  interval_cases o
  · exact BitVec.extractLsb'_append_eq_right
  · exact (extractByte_append_succ _ _ 0).trans BitVec.extractLsb'_append_eq_right
  · exact (extractByte_append_succ _ _ 1).trans <| (extractByte_append_succ _ _ 0).trans
      BitVec.extractLsb'_append_eq_right
  · exact (extractByte_append_succ _ _ 2).trans <| (extractByte_append_succ _ _ 1).trans <|
      (extractByte_append_succ _ _ 0).trans BitVec.extractLsb'_eq_self

/-- A word depends only on its own four bytes. -/
theorem word_congr {m m' : Memory} {k : Nat} (h : ∀ o < 4, m.read (4 * k + o) = m'.read (4 * k + o)) :
    m.word k = m'.word k := by
  have h0 : m.read (4 * k) = m'.read (4 * k) := h 0 (by decide)
  rw [Memory.word_eq, Memory.word_eq, h0, h 1 (by decide), h 2 (by decide), h 3 (by decide)]

/-- R54: a byte written at offset `4k + o` leaves every word but `X[k]`. -/
theorem word_write_other (m : Memory) {k k' o : Nat} (v : Byte) (ho : o < 4) (hk : k' ≠ k) :
    (m.write (4 * k + o) v).word k' = m.word k' := by
  apply word_congr
  intro o' ho'
  rw [Memory.read_write, if_neg (by omega)]

/-- Settles O55: each field of a word is a byte of the buffer (`word_extractByte`), so its clauses are those of a read
after a write. -/
theorem wordViewIsLittleEndian : Obligations.WordViewIsLittleEndian := by
  intro m k o v _ ho
  refine ⟨word_extractByte m k ho, ?_, ?_, fun k' hk' => word_write_other m v ho hk'⟩
  · rw [word_extractByte _ k ho, Memory.read_write, if_pos rfl]
  · intro o' ho' hne
    rw [word_extractByte _ k ho', word_extractByte _ k ho', Memory.read_write, if_neg (by omega)]

end Sys2Proof.Proofs
end

section
/-! PROOF. Headers (spec/30_encoding.md): the row of the table a header selects (R73, O3) and the headers that are
illegal (R77, O4). -/

namespace Sys2Proof.Proofs

open Sys2Proof Sys2Proof.Machine

/-! ## The masks of the table -/

/-- The mask of RESET keeps every bit. -/
theorem and_ffffffff_eq_zero_iff (w : Word) : w &&& 0xFFFFFFFF = 0 ↔ w = 0 := by
  rw [show (0xFFFFFFFF : Word) = BitVec.allOnes 32 from rfl, BitVec.and_allOnes]

/-- The mask of the append commands keeps the low byte. -/
theorem and_ff_eq_iff (w : Word) {k : Nat} (hk : k < 256) :
    w &&& 0xFF = BitVec.ofNat 32 k ↔ w.toNat % 256 = k := by
  have hlow : (w &&& 0xFF).toNat = w.toNat % 256 := by
    rw [BitVec.toNat_and]
    exact Nat.and_two_pow_sub_one_eq_mod w.toNat 8
  rw [← BitVec.toNat_inj, hlow, BitVec.toNat_ofNat, Nat.mod_eq_of_lt (by omega : k < 2 ^ 32)]

/-- The mask of FINALIZE leaves out the bit `RAW` alone: one word for each of its values. -/
theorem and_ffffffef_eq_four_iff (w : Word) :
    w &&& 0xFFFFFFEF = 4 ↔ w = 0x04 ∨ w = 0x14 := by
  refine ⟨fun h => ?_, by rintro (rfl | rfl) <;> rfl⟩
  have hsplit : w = (w &&& 0xFFFFFFEF) ||| (w &&& 0x10) := by
    rw [← BitVec.and_or_distrib_left]
    exact BitVec.and_allOnes.symm
  have hraw : w &&& 0x10 = if w.getLsbD 4 then 0x10 else 0 := BitVec.and_twoPow w 4
  rw [h, hraw] at hsplit
  cases hbit : w.getLsbD 4 with
  | false => rw [hbit] at hsplit; exact .inl hsplit
  | true => rw [hbit] at hsplit; exact .inr hsplit

/-! ## The rows -/

/-- R72, R73: the header `w` stands in the row of `h`, and carries the operands of `h`. -/
def InRow (w : Word) : Header → Prop
  | .reset => w = 0
  | .appendText n => w.toNat % 256 = 1 ∧ w.toNat / 256 = n
  | .appendAscii n => w.toNat % 256 = 2 ∧ w.toNat / 256 = n
  | .appendBytes n => w.toNat % 256 = 3 ∧ w.toNat / 256 = n
  | .finalize raw => (w = 0x04 ∨ w = 0x14) ∧ w.getLsbD 4 = raw

theorem decodeHeader_of_inRow {w : Word} {h : Header} (hw : InRow w h) : decodeHeader w = .ok h := by
  cases h with
  | reset => cases hw; rfl
  | appendText n | appendAscii n | appendBytes n =>
    obtain ⟨hlow, rfl⟩ := hw
    simp (disch := omega) only [decodeHeader_eq, if_neg, if_pos]
  | finalize raw => obtain ⟨rfl | rfl, rfl⟩ := hw <;> rfl

theorem inRow_of_decodeHeader {w : Word} {h : Header} (hd : decodeHeader w = .ok h) : InRow w h := by
  rw [decodeHeader_eq] at hd
  split_ifs at hd with hop hrsv hraw hlen h0 h1 h2 h3 <;> cases hd
  · exact BitVec.eq_of_toNat_eq (show w.toNat = 0 by omega)
  · exact ⟨by omega, rfl⟩
  · exact ⟨by omega, rfl⟩
  · exact ⟨by omega, rfl⟩
  · have : w.toNat = 0x04 ∨ w.toNat = 0x14 := by omega
    exact ⟨this.imp BitVec.eq_of_toNat_eq BitVec.eq_of_toNat_eq, rfl⟩

theorem decodeHeader_eq_ok_iff (w : Word) (h : Header) : decodeHeader w = .ok h ↔ InRow w h :=
  ⟨inRow_of_decodeHeader, decodeHeader_of_inRow⟩

/-- Settles O3: the decoder gives a command exactly on the words of its row (`decodeHeader_eq_ok_iff`), and those are
the words the row's mask selects. -/
theorem headerSelectsItsTableRow : Obligations.HeaderSelectsItsTableRow := by
  intro w
  simp only [decodeHeader_eq_ok_iff, InRow, and_true]
  exact ⟨and_ffffffff_eq_zero_iff w, and_ff_eq_iff w (by decide), and_ff_eq_iff w (by decide),
    and_ff_eq_iff w (by decide), and_ffffffef_eq_four_iff w⟩

/-! ## Illegal headers -/

/-- R77: the four cases of an illegal header. -/
def IllegalHeader (w : Word) : Prop :=
  5 ≤ w.toNat % 16 ∨ w.toNat / 32 % 8 ≠ 0 ∨ (w.toNat / 16 % 2 = 1 ∧ w.toNat % 16 ≠ 4) ∨
    (w.toNat / 256 ≠ 0 ∧ (w.toNat % 16 = 0 ∨ w.toNat % 16 = 4))

/-- In each of the four cases the decoder rejects, with the reason of the first case that is met. -/
theorem decodeHeader_of_illegalHeader {w : Word} (hw : IllegalHeader w) :
    ∃ r, decodeHeader w = .error r := by
  rw [decodeHeader_eq]
  by_cases hop : 5 ≤ w.toNat % 16
  · exact ⟨_, if_pos hop⟩
  rw [if_neg hop]
  by_cases hrsv : w.toNat / 32 % 8 ≠ 0
  · exact ⟨_, if_pos hrsv⟩
  rw [if_neg hrsv]
  by_cases hraw : w.toNat / 16 % 2 = 1 ∧ w.toNat % 16 ≠ 4
  · exact ⟨_, if_pos hraw⟩
  rw [if_neg hraw]
  have hlen := ((hw.resolve_left hop).resolve_left hrsv).resolve_left hraw
  exact ⟨_, if_pos hlen⟩

theorem illegalHeader_iff (w : Word) : IllegalHeader w ↔ ∃ r, decodeHeader w = .error r := by
  refine ⟨decodeHeader_of_illegalHeader, fun ⟨r, hr⟩ => ?_⟩
  rw [decodeHeader_eq] at hr
  split_ifs at hr with hop hrsv hraw hlen <;> cases hr
  · exact .inl hop
  · exact .inr (.inl hrsv)
  · exact .inr (.inr (.inl hraw))
  · exact .inr (.inr (.inr hlen))

/-- R165 (1): the header at the port is decoded before anything else is looked at. -/
theorem step_illegalHeader {w : Word} {r : Reject} {s : State} {ts : List Transfer}
    (hw : decodeHeader w = .error r) (hs : s.seq = .cIdle) (hp : s.port = .header w :: ts) :
    step s = .refused (.illegal r) := by
  have hf : fetch s = .refuse (.illegal r) := by simp [fetch_idle hs, fetchCommand, hp, hw]
  simp [step, hf]

/-- Settles O4: the four cases by `illegalHeader_iff`, the refusal by `step_illegalHeader`. -/
theorem illegalHeaderIsRefused : Obligations.IllegalHeaderIsRefused := fun w =>
  ⟨illegalHeader_iff w, fun _ _ _ => step_illegalHeader⟩

end Sys2Proof.Proofs
end

section
/-! PROOF. The responses of the commands (spec/30_encoding.md R78): O43. -/

namespace Sys2Proof.Proofs

open Sys2Proof Sys2Proof.Machine

/-- R78: the kind of response the table gives a command that completes; `t` is the state it leaves. -/
def ResponseRow (i : Instr) (t : State) (r : Response) : Prop :=
  match i with
  | .appendText _ => (t.phase = .ready ∧ r = .ok) ∨ (t.phase = .faulted ∧ r = .error 1)
  | .finalize true => ∃ q, r = .digestRaw q
  | .finalize false => ∃ cs, r = .digestHex cs ∧ cs.length = 32
  | _ => r = .ok

/-- R144: two characters for each of the 16 bytes. -/
theorem hexDigest_length (q : ABCD) : (hexDigest q).length = 32 := rfl

theorem responseRow_digestResponse (raw : Bool) (q : ABCD) (t : State) :
    ResponseRow (.finalize raw) t (digestResponse raw q) := by
  cases raw with
  | true => exact ⟨q, rfl⟩
  | false => exact ⟨hexDigest q, rfl, hexDigest_length q⟩

/-- An append command without error answers `OK`. -/
theorem responseRow_of_pushedBytes {i : Instr} {p : List Byte} {t : State}
    (hi : pushedBytes i = some p) (ht : t.phase = .ready) : ResponseRow i t .ok := by
  cases i with
  | appendText us => exact .inl ⟨ht, rfl⟩
  | appendAscii cs => rfl
  | appendBytes bs => rfl
  | _ => simp [pushedBytes] at hi

theorem responseRow_of_exec {i : Instr} {s t : State} (hi : isCommand i = true)
    (h : exec i s = .next t) : ∃ r, t.out = s.out ++ [r] ∧ ResponseRow i t r := by
  rcases exec_command_cases hi h with ⟨rfl, rfl⟩ | ⟨hs, p, hp, rfl⟩ |
    ⟨-, us, c, p, rfl, -, rfl⟩ | ⟨-, raw, rfl, rfl⟩
  · exact ⟨.ok, by simp, rfl⟩
  · exact ⟨.ok, by simp, responseRow_of_pushedBytes hp (by rw [respond_phase, pushBytes_phase, hs])⟩
  · exact ⟨.error encodingErrorCode, by simp, .inr ⟨takeEncodingError_phase _, rfl⟩⟩
  · exact ⟨digestResponse raw (finalDigest s), by simp, responseRow_digestResponse raw _ _⟩

/-- R78: `ECODE` stands above the two bits of `STATUS`. -/
theorem statusWord_toNat (r : Response) :
    r.statusWord.toNat = r.status.toNat + 4 * r.ecode.toNat := by
  have hcode : ((0 : BitVec 22) ++ r.ecode).toNat = r.ecode.toNat := by
    rw [BitVec.toNat_append, show (0 : BitVec 22).toNat = 0 from rfl, Nat.zero_shiftLeft, Nat.zero_or]
  rw [Response.statusWord, BitVec.toNat_append, hcode,
    ← Nat.shiftLeft_add_eq_or_of_lt r.status.isLt, Nat.shiftLeft_eq]
  omega

/-- Settles O43: the kind of the response by `responseRow_of_exec`, its status word by `statusWord_toNat`; the rest
is the definition of a response's words and bytes. -/
theorem oneResponsePerCommand : Obligations.OneResponsePerCommand := by
  refine ⟨fun i s t hi h => ?_, fun q cs e => ?_⟩
  · obtain ⟨r, hout, hrow⟩ := responseRow_of_exec hi h
    refine ⟨r, hout, ?_⟩
    cases i with
    | finalize raw => cases raw <;> exact hrow
    | _ => exact hrow
  · exact ⟨rfl, BitVec.eq_of_toNat_eq (statusWord_toNat (.digestRaw q)),
      BitVec.eq_of_toNat_eq (statusWord_toNat (.digestHex cs)), statusWord_toNat (.error e),
      rfl, rfl, rfl, rfl, rfl, rfl, rfl, rfl⟩

end Sys2Proof.Proofs
end

section
/-! PROOF. RESET (spec/40_reset.md): the fresh context (O11), RESET after RESET (O12), and two runs that begin with a
RESET (R91, O13). -/

namespace Sys2Proof.Proofs

open Sys2Proof Sys2Proof.Machine

/-! ## A fresh context -/

theorem decode_legalHeader {w : Word} {h : Header} (hw : decodeHeader w = .ok h)
    (ts : List Transfer) : decode (.transfers (.header w :: ts)) = decodePayload h ts := by
  simp only [decode, decodeTransfers, hw]

/-- Settles O11: the header by its row of R73, the state by the fields of `freshContext`. -/
theorem resetGivesFreshContext : Obligations.ResetGivesFreshContext := by
  refine ⟨decode_legalHeader (decodeHeader_of_inRow (h := .reset) rfl), fun s => ?_⟩
  exact ⟨respond .ok (freshContext s), exec_reset s, rfl, rfl, rfl, rfl, rfl, fun _ => rfl,
    rfl, rfl, rfl, rfl⟩

/-- Settles O12: what RESET writes of the context are constants, and a command other than RESET is refused outside
READY (`exec_refused`). -/
theorem resetIsIdempotent : Obligations.ResetIsIdempotent := by
  refine ⟨fun s => ?_, fun i s t hi hphase h => ?_⟩
  · exact ⟨_, _, exec_reset s, exec_reset _, rfl, rfl, rfl, rfl, fun _ => rfl, rfl⟩
  · by_contra hreset
    have hready : s.phase ≠ .ready := by rcases hphase with hp | hp <;> simp [hp]
    cases (exec_refused hi hreset hready).symm.trans h

/-! ## Two runs after a RESET -/

/-- The relation that two runs keep: one phase and, in READY, contexts that agree where they are defined. Outside READY
only RESET runs, which reads no context. -/
def Indistinguishable (s s' : State) : Prop :=
  s.phase = s'.phase ∧ (s.phase = .ready → SameContext s s')

/-- From two states the commands give the same responses, or are refused for the same reason. -/
def SameRun (cmds : List Instr) (s s' : State) : Prop :=
  (∃ t t' rs, execAll cmds s = .next t ∧ execAll cmds s' = .next t' ∧
    t.out = s.out ++ rs ∧ t'.out = s'.out ++ rs) ∨
  ∃ r, execAll cmds s = .refused r ∧ execAll cmds s' = .refused r

theorem execAll_cons_of_next {i : Instr} {s t : State} (h : exec i s = .next t)
    (cmds : List Instr) : execAll (i :: cmds) s = execAll cmds t := by
  rw [execAll, h]

theorem execAll_cons_of_refused {i : Instr} {s : State} {r : Refusal}
    (h : exec i s = .refused r) (cmds : List Instr) : execAll (i :: cmds) s = .refused r := by
  rw [execAll, h]

/-- A command cannot tell two indistinguishable states apart. -/
theorem sameAnswer_or_sameRefusal {i : Instr} {s s' : State} (hi : isCommand i = true)
    (h : Indistinguishable s s') :
    SameAnswer i s s' ∨ ∃ r, exec i s = .refused r ∧ exec i s' = .refused r := by
  obtain ⟨hphase, hctx⟩ := h
  by_cases hreset : i = .reset
  · subst hreset
    exact .inl (sameAnswer_reset s s')
  by_cases hready : s.phase = .ready
  · exact .inl (staleBytesAreNeverRead i s s' hi hready (hctx hready))
  · refine .inr ⟨.wrongPhase s.phase, exec_refused hi hreset hready, ?_⟩
    rw [hphase] at hready ⊢
    exact exec_refused hi hreset hready

/-- A command with one answer in both states, before a run that is the same from where it leads. -/
theorem sameRun_cons {i : Instr} {cmds : List Instr} {s s' : State} (hi : SameAnswer i s s')
    (hcmds : ∀ {t t'}, Indistinguishable t t' → SameRun cmds t t') :
    SameRun (i :: cmds) s s' := by
  obtain ⟨t, t', r, ht, ht', hout, hout', hctx, hphase⟩ := hi
  unfold SameRun
  rw [execAll_cons_of_next ht, execAll_cons_of_next ht']
  refine (hcmds ⟨hphase, hctx⟩).imp_left fun ⟨u, u', rs, hu, hu', hrs, hrs'⟩ => ?_
  exact ⟨u, u', r :: rs, hu, hu', by simp [hrs, hout], by simp [hrs', hout']⟩

theorem sameRun_of_indistinguishable {cmds : List Instr} (hcmds : ∀ i ∈ cmds, isCommand i = true)
    {s s' : State} (h : Indistinguishable s s') : SameRun cmds s s' := by
  induction cmds generalizing s s' with
  | nil => exact .inl ⟨s, s', [], rfl, rfl, by simp, by simp⟩
  | cons i cmds ih =>
    obtain ⟨hi, hcmds⟩ := List.forall_mem_cons.1 hcmds
    rcases sameAnswer_or_sameRefusal hi h with hanswer | ⟨r, hr, hr'⟩
    · exact sameRun_cons hanswer (ih hcmds)
    · exact .inr ⟨r, execAll_cons_of_refused hr cmds, execAll_cons_of_refused hr' cmds⟩

/-- Settles O13: after a RESET two states are indistinguishable (`sameAnswer_reset`), and no command tells them apart
(`sameRun_of_indistinguishable`). -/
theorem historyBeforeResetIsInvisible : Obligations.HistoryBeforeResetIsInvisible := by
  intro s s' cmds hcmds
  rcases sameRun_cons (sameAnswer_reset s s') (sameRun_of_indistinguishable hcmds) with
    ⟨t, t', rs, ht, ht', hout, hout'⟩ | ⟨r, hr, hr'⟩
  · rw [ht, ht']
    exact ⟨rs, hout, hout'⟩
  · rw [hr, hr']

end Sys2Proof.Proofs
end

section
/-! PROOF. The compressor (spec/41_compress.md): the tables by step index (O37, O38), the micro-operations (O31, O32,
O33) and COMPRESS as a whole (O30). -/

namespace Sys2Proof.Proofs

open Sys2Proof Sys2Proof.Machine

/-! ## The round functions -/

section
variable (b c d : Word)

/-- R97: of the two conjunctions, bit `j` of `b` keeps the one with `c` or the one with `d`. -/
theorem roundF_getLsbD {j : Nat} (hj : j < 32) :
    (roundF b c d).getLsbD j = if b.getLsbD j = true then c.getLsbD j else d.getLsbD j := by
  simp only [roundF, BitVec.getLsbD_or, BitVec.getLsbD_and, BitVec.getLsbD_not, decide_eq_true hj]
  cases b.getLsbD j <;> simp

/-- R97: G is F with `d` for the selector. -/
theorem roundG_getLsbD {j : Nat} (hj : j < 32) :
    (roundG b c d).getLsbD j = if d.getLsbD j = true then b.getLsbD j else c.getLsbD j := by
  have hG : roundG b c d = roundF d b c := by
    rw [roundG, roundF, BitVec.and_comm b d, BitVec.and_comm c]
  rw [hG, roundF_getLsbD d b c hj]

theorem roundHf_getLsbD (j : Nat) : (roundHf b c d).getLsbD j =
    Bool.xor (b.getLsbD j) (Bool.xor (c.getLsbD j) (d.getLsbD j)) := by
  rw [roundHf, BitVec.getLsbD_xor, BitVec.getLsbD_xor, Bool.xor_assoc]

theorem roundI_getLsbD {j : Nat} (hj : j < 32) : (roundI b c d).getLsbD j =
    Bool.xor (c.getLsbD j) (b.getLsbD j || !d.getLsbD j) := by
  simp only [roundI, BitVec.getLsbD_xor, BitVec.getLsbD_or, BitVec.getLsbD_not, decide_eq_true hj,
    Bool.true_and]

end

/-! ## The tables by step index -/

/-- The four groups of sixteen steps; the tables take an index past the last one for group 3. -/
theorem group_cases (i : Nat) : (i < 16 ∧ i / 16 = 0) ∨ (¬ i < 16 ∧ i < 32 ∧ i / 16 = 1) ∨
    (¬ i < 16 ∧ ¬ i < 32 ∧ i < 48 ∧ i / 16 = 2) ∨
    (¬ i < 16 ∧ ¬ i < 32 ∧ ¬ i < 48 ∧ ∃ n, i / 16 = n + 3) := by
  by_cases h : i < 48
  · omega
  · exact .inr (.inr (.inr ⟨by omega, by omega, h, i / 16 - 3, by omega⟩))

/-- R97: the function of a step by the range of its index. -/
theorem groupFn_eq (i : Nat) :
    groupFn (i / 16) = if i < 16 then .F else if i < 32 then .G else if i < 48 then .Hf else .I := by
  rcases group_cases i with ⟨h, hg⟩ | ⟨h, h1, hg⟩ | ⟨h, h1, h2, hg⟩ | ⟨h, h1, h2, n, hg⟩ <;>
    simp [groupFn, *]

theorem eval_groupFn (i : Nat) (b c d : Word) :
    (groupFn (i / 16)).eval b c d = stepFunction i b c d := by
  rw [groupFn_eq, stepFunction]
  split_ifs <;> rfl

theorem wordIndex_eq (i : Nat) : wordIndex i = stepWord i := by
  rcases group_cases i with ⟨h, hg⟩ | ⟨h, h1, hg⟩ | ⟨h, h1, h2, hg⟩ | ⟨h, h1, h2, n, hg⟩ <;>
    simp [wordIndex, stepWord, Nat.mod_eq_of_lt, *]

theorem rotation_eq : ∀ i < 64, Machine.rotation i = stepRotation i := by decide

/-- Settles O37: each function by its `getLsbD` lemma, the groups by `groupFn_eq`. -/
theorem roundFunctionsBitByBit : Obligations.RoundFunctionsBitByBit := by
  refine ⟨fun b c d j hj => ⟨roundF_getLsbD b c d hj, roundG_getLsbD b c d hj,
    roundHf_getLsbD b c d j, roundI_getLsbD b c d hj⟩, ?_⟩
  refine ⟨fun i h => ?_, fun i h h' => ?_, fun i h h' => ?_, fun i h _ => ?_⟩ <;> rw [groupFn_eq]
  · rw [if_pos h]
  · rw [if_neg (by omega), if_pos h']
  · rw [if_neg (by omega), if_neg (by omega), if_pos h']
  · rw [if_neg (by omega), if_neg (by omega), if_neg (by omega)]

/-- R100: within a group two steps never read one word, since the factors 1, 5, 3 and 7 of the step index are odd. -/
theorem wordIndex_injective {g j j' : Nat} (hg : g < 4) (hj : j < 16) (hj' : j' < 16)
    (h : wordIndex (16 * g + j) = wordIndex (16 * g + j')) : j = j' := by
  rw [wordIndex_eq, wordIndex_eq, stepWord, stepWord] at h
  interval_cases g <;> split_ifs at h <;> omega

/-- The word that step `j` of group `g` reads, among the sixteen. -/
def groupWord (g : Nat) (j : Fin 16) : Fin 16 := ⟨wordIndex (16 * g + j.val), wordIndex_lt _⟩

theorem groupWord_bijective {g : Nat} (hg : g < 4) : Function.Bijective (groupWord g) :=
  Finite.injective_iff_bijective.1 fun j j' h =>
    Fin.ext (wordIndex_injective hg j.isLt j'.isLt (congrArg Fin.val h))

/-- Settles O38: the four sequences by evaluation; that each word is used once is `groupWord_bijective`. -/
theorem wordSelectionSequences : Obligations.WordSelectionSequences := by
  refine ⟨rfl, rfl, rfl, rfl, fun g hg k hk => ?_⟩
  obtain ⟨j, hjk⟩ := (groupWord_bijective hg).surjective ⟨k, hk⟩
  have hk' : wordIndex (16 * g + j) = k := congrArg Fin.val hjk
  exact ⟨j, j.isLt, hk', fun j' hj' h => wordIndex_injective hg hj' j.isLt (h.trans hk'.symm)⟩

/-! ## The micro-operations -/

theorem exec_load (s : State) : exec .load s = .next (opLoad s) := rfl

theorem exec_feedforward (s : State) : exec .feedforward s = .next (opFeedForward s) := rfl

/-- R81: the index that stands beside a STEP is the one that decodes to it. -/
theorem decodeMicroOp_stepPair : ∀ p ∈ stepPairs0 ++ stepPairs1 ++ stepPairs2 ++ stepPairs3,
    p.2 < 64 ∧ decodeMicroOp (BitVec.ofNat 7 p.2) = .instr p.1 [] := by decide

theorem exec_stepPair {p : Instr × Nat}
    (hp : p ∈ stepPairs0 ++ stepPairs1 ++ stepPairs2 ++ stepPairs3) (s : State) :
    exec p.1 s = .next (tableStep p.2 s) := by
  obtain ⟨hlt, hdecode⟩ := decodeMicroOp_stepPair p hp
  have hexec := decodeMicroOp_step ⟨p.2, hlt⟩ s
  rw [hdecode] at hexec
  exact hexec

/-- Settles O31: the fields of `opLoad`. -/
theorem loadCopiesTheHash : Obligations.LoadCopiesTheHash := fun s =>
  ⟨opLoad s, exec_load s, rfl, rfl, rfl, rfl, rfl, rfl, rfl, rfl, rfl, rfl, rfl, rfl, rfl⟩

/-- Settles O32: the words of `ABCD.add`, whose sum is the word type's. -/
theorem feedforwardAddsTheEntryState : Obligations.FeedforwardAddsTheEntryState := fun s =>
  ⟨opFeedForward s, exec_feedforward s, s.h.a.toNat_add s.w.a, s.h.b.toNat_add s.w.b,
    s.h.c.toNat_add s.w.c, s.h.d.toNat_add s.w.d, rfl, rfl, rfl, rfl, rfl, rfl, rfl, rfl, rfl⟩

/-- Settles O33: a STEP does what the tables give for its index (`exec_stepPair`), and the tables are those written
out. -/
theorem everyStepComputesItsRow : Obligations.EveryStepComputesItsRow := by
  intro p hp s
  have hlt : p.2 < 64 := (decodeMicroOp_stepPair p hp).1
  have hb : (tableStep p.2 s).w.b = s.w.b + rotl32 (s.w.a + stepFunction p.2 s.w.b s.w.c s.w.d +
      s.buf.word (stepWord p.2) + additive p.2) (stepRotation p.2) := by
    rw [tableStep_w, roundStep, eval_groupFn, wordIndex_eq, rotation_eq p.2 hlt]
  exact ⟨tableStep p.2 s, exec_stepPair hp s, rfl, rfl, rfl, hb,
    rfl, rfl, rfl, rfl, rfl, rfl, rfl, rfl, rfl⟩

/-! ## COMPRESS -/

/-- Settles O30: the fields of `compress`, with the word view of the buffer taken to its bytes
(`compressFn_word`). -/
theorem compressWritesTheHashOnly : Obligations.CompressWritesTheHashOnly := by
  intro s
  have hh : (compress s).h = compressBytes s.h (fun j => s.buf.read j) := by
    rw [compress_h, compressFn_word fun _ _ => rfl]
  exact ⟨hh, fun j => by rw [compress_buf], compress_bufferLength s, compress_totalLength s,
    compress_phase s, compress_seq s, compress_port s, compress_out s⟩

end Sys2Proof.Proofs
end

section
/-! PROOF. The append commands as pushes of bytes (spec/42_append.md R120 to R123, R129 to R132): the chunking law
(O28), PUSHBYTE (O16), APPEND_BYTES (O17), APPEND_ASCII (O19), the agreement of the three paths (O20), and the empty
append (O27). -/

namespace Sys2Proof.Proofs

open Sys2Proof Sys2Proof.Machine

/-! ## The bytes of a command -/

theorem pushedBytes_appendText {us : List Half} {bs : List Byte} (h : encodeText us = .ok bs) :
    pushedBytes (.appendText us) = some bs := by
  simp only [pushedBytes, h]

theorem messageOf_pair {i j : Instr} {p q : List Byte} (hi : pushedBytes i = some p)
    (hj : pushedBytes j = some q) : messageOf [i, j] = some (p ++ q) := by
  simp [messageOf, hi, hj]

/-- R169: a command that pushes bytes is an append command, which needs READY. -/
theorem exec_append_refused {i : Instr} {p : List Byte} {s : State} (hi : pushedBytes i = some p)
    (hs : s.phase ≠ .ready) : exec i s = .refused (.wrongPhase s.phase) := by
  have hc : isCommand i = true ∧ i ≠ .reset := by
    cases i with
    | appendText us | appendAscii cs | appendBytes bs => exact ⟨rfl, nofun⟩
    | _ => simp [pushedBytes] at hi
  exact exec_refused hc.1 hc.2 hs

/-- R131: the outcome of an append command is a function of the bytes it pushes, in any phase. -/
theorem exec_eq_of_pushedBytes {i j : Instr} {p : List Byte} (hi : pushedBytes i = some p)
    (hj : pushedBytes j = some p) (s : State) : exec i s = exec j s := by
  by_cases hs : s.phase = .ready
  · rw [exec_append hs hi, exec_append hs hj]
  · rw [exec_append_refused hi hs, exec_append_refused hj hs]

/-! ## The chunking law -/

/-- R129: two commands against one that pushes the bytes of both. -/
theorem sameAsOne_pair {i j one : Instr} {p q : List Byte} {s : State} (hs : s.phase = .ready)
    (hi : pushedBytes i = some p) (hj : pushedBytes j = some q)
    (ho : pushedBytes one = some (p ++ q)) : SameAsOne [i, j] one s :=
  sameAsOne_of_messageOf hs (messageOf_pair hi hj) ho

/-- Settles O28: append commands leave what one push of their message leaves (`sameAsOne_of_messageOf`); the message of
two commands of one kind is that of their joined payload, for a text because the encoder works piece by piece at a cut
between two characters (`encodeText_split`). -/
theorem chunkingDoesNotMatter : Obligations.ChunkingDoesNotMatter := by
  intro s hs
  refine ⟨fun cmds m hm => sameAsOne_of_messageOf hs hm rfl, fun p q => ?_, fun p q => ?_,
    fun p q bs hbs hcut => ?_⟩
  · exact sameAsOne_pair hs rfl rfl rfl
  · exact sameAsOne_pair hs rfl rfl (congrArg some List.map_append)
  · obtain ⟨a, b, ha, hb, rfl⟩ := encodeText_split hcut hbs
    exact sameAsOne_pair hs (pushedBytes_appendText ha) (pushedBytes_appendText hb)
      (pushedBytes_appendText hbs)

/-! ## PUSHBYTE -/

/-- R121: at the block edge the block compressed is the 63 bytes before the edge and the byte pushed. -/
theorem pushByte_edge_h (v : Byte) (s : State) (h : s.bufferLength.val = 63) :
    (pushByte v s).h = compressBytes s.h fun j => if j = 63 then v else s.buf.read j := by
  rw [pushByte_edge v s h, drain_h]
  exact compressFn_word (fun j _ => Memory.read_write s.buf 63 j v) s.h

theorem pushByte_read (v : Byte) (s : State) (j : Nat) :
    (pushByte v s).buf.read j = if j = s.bufferLength.val then v else s.buf.read j := by
  rw [pushByte_buf, Memory.read_write]

/-- Settles O16: the write at the cursor by `pushByte_read`; below the edge by `pushByte_below`, at the edge by the
fields of DRAIN. -/
theorem pushByteFillsAndDrains : Obligations.PushByteFillsAndDrains := by
  intro v s
  refine ⟨pushByte_read v s, pushByte_phase v s, pushByte_seq v s, pushByte_port v s,
    pushByte_out v s, fun hbelow => ?_, fun hedge => ?_⟩
  · rw [pushByte_below v s (by omega)]
    exact ⟨rfl, rfl, rfl, rfl, rfl⟩
  · refine ⟨?_, pushByte_edge_h v s hedge, ?_⟩
    · rw [pushByte_bufferLength, hedge]
    · rw [pushByte_totalLength, hedge]; rfl

/-! ## APPEND_BYTES and APPEND_ASCII -/

/-- R78, R122: an append command without error stays in READY, answers `OK`, and leaves the port and the sequencer
alone. -/
theorem respond_pushBytes_surroundings {s : State} (hs : s.phase = .ready) (p : List Byte) :
    (respond .ok (pushBytes p s)).phase = .ready ∧
      (respond .ok (pushBytes p s)).out = s.out ++ [.ok] ∧
      (respond .ok (pushBytes p s)).seq = s.seq ∧
      (respond .ok (pushBytes p s)).port = s.port := by
  rw [respond_phase, respond_out, respond_seq, respond_port, pushBytes_phase, pushBytes_out,
    pushBytes_seq, pushBytes_port]
  exact ⟨hs, rfl, rfl, rfl⟩

/-- R122: an offset that no byte of the payload is stored at keeps its byte. -/
theorem pushBytes_read_other (p : List Byte) (s : State) (j : Nat)
    (h : ∀ k, k < p.length → (s.bufferLength.val + k) % 64 ≠ j) :
    (pushBytes p s).buf.read j = s.buf.read j := by
  induction p generalizing s with
  | nil => rfl
  | cons v p ih =>
    have hhead : j ≠ s.bufferLength.val := by
      have := h 0 (Nat.zero_lt_succ _)
      have := s.bufferLength.isLt
      omega
    have htail : ∀ k, k < p.length → ((pushByte v s).bufferLength.val + k) % 64 ≠ j := by
      intro k hk
      have := h (k + 1) (Nat.succ_lt_succ hk)
      rw [pushByte_bufferLength]
      omega
    rw [pushBytes, ih _ htail, pushByte_read, if_neg hhead]

/-- Settles O17: the payload is one push after the other (`foldl_pushByte`), whose cursor, counter and untouched offsets
are those of `pushBytes`. -/
theorem appendBytesPushesEachByte : Obligations.AppendBytesPushesEachByte := by
  refine ⟨fun w hw => decodeHeader_of_inRow ⟨hw, rfl⟩, fun bytes s => ⟨?_, fun hs => ?_⟩⟩
  · exact exec_append_refused rfl
  · obtain ⟨hphase, hout, hseq, hport⟩ := respond_pushBytes_surroundings hs bytes
    exact ⟨_, exec_append hs rfl, by rw [foldl_pushByte], hphase, hout, hseq, hport,
      pushBytes_bufferLength bytes s, pushBytes_totalLength bytes s, pushBytes_read_other bytes s⟩

/-- R123: the codes pushed one by one, each modulo 256. -/
theorem foldl_pushByte_codes (chars : List Half) (s : State) :
    chars.foldl (fun s c => pushByte (BitVec.ofNat 8 (c.toNat % 256)) s) s =
      pushBytes (chars.map asciiByte) s := by
  simp only [← asciiByte_eq]
  rw [← foldl_pushByte, List.foldl_map]

/-- Settles O19: APPEND_ASCII is the push of its truncated codes (`foldl_pushByte_codes`). -/
theorem appendAsciiTruncatesEachCode : Obligations.AppendAsciiTruncatesEachCode := by
  refine ⟨fun w hw => decodeHeader_of_inRow ⟨hw, rfl⟩, fun chars s => ⟨?_, fun hs => ?_⟩⟩
  · exact exec_append_refused rfl
  · exact ⟨_, exec_append hs rfl, by rw [foldl_pushByte_codes],
      respond_pushBytes_surroundings hs (chars.map asciiByte)⟩

/-! ## The three paths and the empty payload -/

/-- Settles O20: in each clause the two commands push the same bytes (`exec_eq_of_pushedBytes`). -/
theorem textAndAsciiPathsAreBytePaths : Obligations.TextAndAsciiPathsAreBytePaths := by
  intro units s
  refine ⟨?_, fun bs hbs => ?_, fun hascii => ?_⟩
  · simp only [← asciiByte_eq]
    exact exec_eq_of_pushedBytes rfl rfl s
  · exact exec_eq_of_pushedBytes (pushedBytes_appendText hbs) rfl s
  · exact exec_eq_of_pushedBytes (pushedBytes_appendText (encodeText_ascii units hascii)) rfl s

/-- Settles O27: each of the three commands pushes the empty list, and only the response is left. -/
theorem emptyAppendChangesNothing : Obligations.EmptyAppendChangesNothing := fun s hs =>
  have hempty {i : Instr} (hi : pushedBytes i = some []) :
      exec i s = .next { s with out := s.out ++ [.ok] } := exec_append hs hi
  ⟨hempty rfl, hempty rfl, hempty rfl⟩

end Sys2Proof.Proofs
end

section
/-! PROOF. The UTF-8 encoder and texts (spec/42_append.md R125, R127, R133): the table of ENCODE (O24), a surrogate pair
split over two commands (O23), and the length of a text (O26). -/

namespace Sys2Proof.Proofs

open Sys2Proof Sys2Proof.Machine

/-! ## The rows of ENCODE, by the value of the unit -/

theorem isHigh_eq_false {u : Half} (h : u.toNat < 0xD800 ∨ 0xDBFF < u.toNat) :
    isHigh u = false := by
  rw [← Bool.not_eq_true, isHigh_iff]; omega

theorem isLow_eq_false {u : Half} (h : u.toNat < 0xDC00 ∨ 0xDFFF < u.toNat) :
    isLow u = false := by
  rw [← Bool.not_eq_true, isLow_iff]; omega

section
variable {u : Half} (next : Option Half)

theorem encodeUnit_oneByte (h : u.toNat < 0x80) :
    encodeUnit u next = .one [BitVec.ofNat 8 u.toNat] := by
  rw [encodeUnit.eq_def, if_pos h, BitVec.ofNat_toNat]

theorem encodeUnit_twoBytes (h : 0x80 ≤ u.toNat) (h' : u.toNat < 0x800) :
    encodeUnit u next = .one (utf8Two u) := by
  rw [encodeUnit.eq_def, if_neg (by omega), if_pos h']

theorem encodeUnit_threeBytes (h : 0x800 ≤ u.toNat) (hhigh : isHigh u = false)
    (hlow : isLow u = false) : encodeUnit u next = .one (utf8Three u) := by
  simp only [encodeUnit, hhigh, hlow]
  rw [if_neg (by omega), if_neg (by omega)]
  rfl

end

/-- Settles O24: each row of the table is the encoder's lemma for that kind of unit, its bytes the arithmetic of
`utf8Two_eq`, `utf8Three_eq` and `utf8Four_eq`. -/
theorem encoderFollowsTheUtf8Table : Obligations.EncoderFollowsTheUtf8Table := by
  intro u next
  refine ⟨encodeUnit_oneByte next, fun h h' => ?_, fun h => ?_, fun h h' => ?_, fun h h' => ?_⟩
  · rw [encodeUnit_twoBytes next h h', utf8Two_eq u h']
  · have hhigh : isHigh u = false := isHigh_eq_false (by omega)
    have hlow : isLow u = false := isLow_eq_false (by omega)
    rw [encodeUnit_threeBytes next (by omega) hhigh hlow, utf8Three_eq]
  · have hhigh : isHigh u = true := (isHigh_iff u).2 ⟨h, h'⟩
    refine ⟨?_, ?_, ?_⟩
    · rintro rfl
      exact encodeUnit_high_last hhigh
    · rintro v rfl hv
      exact encodeUnit_high_other hhigh (isLow_eq_false hv)
    · rintro v cp rfl hv hv' hcp
      have hlow : isLow v = true := (isLow_iff v).2 ⟨hv, hv'⟩
      have hvalue : cp = pairCodePoint u v := by unfold pairCodePoint; exact hcp
      have hle : cp ≤ 0x10FFFF := hvalue.trans_le (pairCodePoint_le hhigh hlow)
      refine ⟨hle, ?_⟩
      rw [encodeUnit_pair hhigh hlow, ← hvalue, utf8Four_eq cp hle]
  · exact encodeUnit_low ((isLow_iff u).2 ⟨h, h'⟩) next

/-! ## Split pairs -/

/-- R126, R166: a text with a lone surrogate takes EncodingError. -/
theorem exec_appendText_loneSurrogate {units : List Half} {s : State} (hs : s.phase = .ready)
    (h : wellPaired units = false) : ∃ t, exec (.appendText units) s = .next t ∧
      t.phase = .faulted ∧ t.out = s.out ++ [.error 1] := by
  cases he : encodeText units with
  | ok bs => cases h.symm.trans ((encodeText_ok_iff units).1 ⟨bs, he⟩)
  | error c =>
    obtain ⟨p, hp⟩ := appendUnits_of_error he s
    refine ⟨_, exec_appendText hs units, ?_⟩
    rw [hp, takeEncodingError_phase, takeEncodingError_out, pushBytes_out]
    exact ⟨rfl, rfl⟩

/-- Settles O23: half of a pair at either end of a payload is a lone surrogate. -/
theorem splitPairIsAnError : Obligations.SplitPairIsAnError := fun units u _ hs =>
  ⟨fun hhigh => exec_appendText_loneSurrogate hs (wellPaired_ends_high units u hhigh),
    fun hlow => exec_appendText_loneSurrogate hs (wellPaired_begins_low units u hlow)⟩

/-! ## The length of a text -/

/-- R10, R133: the message length counts the bytes pushed: what the drains take from the cursor they give to the
counter. -/
theorem pushBytes_messageLength (p : List Byte) (s : State) :
    ((pushBytes p s).totalLength.toNat + (pushBytes p s).bufferLength.val) % 2 ^ 64 =
      (s.totalLength.toNat + s.bufferLength.val + p.length) % 2 ^ 64 := by
  rw [pushBytes_bufferLength, pushBytes_totalLength, BitVec.toNat_add, BitVec.toNat_ofNat]
  omega

/-- R125: half of a pair is not encoded alone. -/
theorem encodeUnit_high_ne_one {u : Half} (hu : isHigh u = true) (next : Option Half)
    (bs : List Byte) : encodeUnit u next ≠ .one bs := by
  cases next with
  | none => simp [encodeUnit_high_last hu]
  | some v =>
    cases hv : isLow v with
    | false => simp [encodeUnit_high_other hu hv]
    | true => simp [encodeUnit_pair hu hv]

/-- R125: the number of bytes of a unit that is encoded alone. -/
theorem encodeUnit_one_length {u : Half} {next : Option Half} {bs : List Byte}
    (h : encodeUnit u next = .one bs) :
    bs.length = if u.toNat < 0x80 then 1 else if u.toNat < 0x800 then 2 else 3 := by
  split_ifs with h1 h2
  · cases (encodeUnit_oneByte next h1).symm.trans h
    rfl
  · cases (encodeUnit_twoBytes next (by omega) h2).symm.trans h
    rfl
  · have hhigh : isHigh u = false :=
      Bool.eq_false_iff.2 fun hu => encodeUnit_high_ne_one hu next bs h
    have hlow : isLow u = false :=
      Bool.eq_false_iff.2 fun hl => by cases (encodeUnit_low hl next).symm.trans h
    cases (encodeUnit_threeBytes next (by omega) hhigh hlow).symm.trans h
    rfl

/-- R125: a text of one unit is that unit encoded alone. -/
theorem encodeUnit_of_encodeText_singleton {u : Half} {bs : List Byte}
    (h : encodeText [u] = .ok bs) : encodeUnit u none = .one bs := by
  cases hu : encodeUnit u none with
  | one bs' => simpa [encodeText, hu] using h
  | pair bs' => exact absurd hu (encodeUnit_none_ne_pair u bs')
  | error c => simp [encodeText, hu] at h

theorem encodeText_pair_length {u v : Half} {bs : List Byte} (h : encodeText [u, v] = .ok bs)
    (hhigh : isHigh u = true) : bs.length = 4 := by
  cases hlow : isLow v with
  | false => simp [encodeText, encodeUnit_high_other hhigh hlow] at h
  | true =>
    simp only [encodeText, encodeUnit_pair hhigh hlow, Except.ok.injEq] at h
    rw [← h]
    rfl

/-- Settles O26: the length by `pushBytes_messageLength`, the counter by its drains, the bytes of one character by
`encodeText_pair_length` and `encodeUnit_one_length`. -/
theorem textLengthIsCountedInBytes : Obligations.TextLengthIsCountedInBytes := by
  refine ⟨fun units bs s hs hbs => ?_, fun u v bs => encodeText_pair_length,
    fun u bs h => encodeUnit_one_length (encodeUnit_of_encodeText_singleton h)⟩
  exact ⟨_, exec_append hs (pushedBytes_appendText hbs), pushBytes_messageLength bs s, _,
    pushBytes_totalLength bs s⟩

end Sys2Proof.Proofs
end

section
/-! PROOF. FINALIZE (spec/43_finalize.md): the digest law (O46), the answer of FINALIZE (O40), the length field (O41) and
the hex digest (O42). -/

namespace Sys2Proof.Proofs

open Sys2Proof Sys2Proof.Machine

/-! ## The digest law -/

/-- R28, R78: RESET and append commands without error leave a state that holds their message, and answer `OK` each. -/
theorem execAll_reset_appends {cmds : List Instr} {m : List Byte} (hm : messageOf cmds = some m)
    (s : State) : ∃ t, execAll (.reset :: cmds) s = .next t ∧ Holds m t ∧
      t.out = s.out ++ List.replicate (cmds.length + 1) .ok := by
  obtain ⟨t, hrun, hctx, hout⟩ := execAll_appends cmds m (respond .ok (freshContext s)) rfl hm
  have hpushed : Holds m (pushBytes m (respond .ok (freshContext s))) :=
    holds_pushBytes (holds_respond (holds_freshContext s) .ok) m
  refine ⟨t, (execAll_cons_of_next (exec_reset s) cmds).trans hrun,
    holds_of_sameContext hpushed hctx, ?_⟩
  rw [hout, respond_out, freshContext_out, List.append_assoc, List.replicate_succ]
  rfl

/-- Settles O46: the appends leave a state that holds `M` (`execAll_reset_appends`), from which FINALIZE answers
`MD5(M)` (`exec_finalize_of_holds`). -/
theorem digestLaw : Obligations.DigestLaw := by
  intro s cmds m raw hm
  obtain ⟨t, hrun, hholds, hout⟩ := execAll_reset_appends hm s
  have hfinal := execAll_cons_of_next (exec_finalize_of_holds hholds raw) []
  refine ⟨_, (execAll_append _ _ _ _ hrun).trans hfinal, spendContext_phase (padAndCompress t), ?_⟩
  rw [respond_out, spendContext_out, padAndCompress_out, hout, digestResponse]

/-! ## The answer of FINALIZE -/

/-- Settles O40: the digest in the response is the one of the padded blocks (`exec_finalize`); padding and COMPRESS
leave the responses, the sequencer and the port alone. -/
theorem finalizeAnswersTheDigest : Obligations.FinalizeAnswersTheDigest := by
  refine ⟨decodeHeader_of_inRow ⟨by decide, rfl⟩, decodeHeader_of_inRow ⟨by decide, rfl⟩,
    fun raw s => ⟨exec_refused rfl nofun, fun hs => ?_⟩⟩
  refine ⟨_, exec_finalize hs raw, spendContext_phase (padAndCompress s), ?_, ?_, ?_⟩
  · rw [respond_out, spendContext_out, padAndCompress_out, digestResponse]
  · rw [respond_seq, spendContext_seq, padAndCompress_seq]
  · rw [respond_port, spendContext_port, padAndCompress_port]

/-! ## The length field -/

section
variable (len : Count)

theorem bitLength_toNat : (bitLength len).toNat = len.toNat * 8 % 2 ^ 64 :=
  BitVec.toNat_mul len 8

theorem bitLength_low_toNat :
    ((bitLength len).extractLsb' 0 32).toNat = len.toNat % 2 ^ 32 * 8 % 2 ^ 32 := by
  rw [BitVec.extractLsb'_toNat, bitLength_toNat, Nat.shiftRight_zero]
  omega

theorem bitLength_high_toNat :
    ((bitLength len).extractLsb' 32 32).toNat =
      (len.toNat / 2 ^ 32 * 8 + len.toNat % 2 ^ 32 / 2 ^ 29) % 2 ^ 32 := by
  rw [BitVec.extractLsb'_toNat, bitLength_toNat, Nat.shiftRight_eq_div_pow]
  omega

/-- R142: the low word is `L[28:0] << 3`. -/
theorem bitLength_low : (bitLength len).extractLsb' 0 32 = len.extractLsb' 0 29 ++ (0 : BitVec 3) := by
  apply BitVec.eq_of_toNat_eq
  rw [bitLength_low_toNat, BitVec.toNat_append, BitVec.extractLsb'_toNat, Nat.shiftRight_zero,
    show (0 : BitVec 3).toNat = 0 from rfl, Nat.or_zero, Nat.shiftLeft_eq]
  omega

/-- R142: the high word is `L[60:29]`. -/
theorem bitLength_high : (bitLength len).extractLsb' 32 32 = len.extractLsb' 29 32 := by
  apply BitVec.eq_of_toNat_eq
  rw [bitLength_high_toNat, BitVec.extractLsb'_toNat, Nat.shiftRight_eq_div_pow]
  omega

end

/-- Settles O41: the two words of the bit length by their values, the bytes by `writeLength_read`. -/
theorem lengthFieldIsExact : Obligations.LengthFieldIsExact := by
  intro len s
  refine ⟨bitLength_toNat len, bitLength_low len, bitLength_high len, bitLength_low_toNat len,
    bitLength_high_toNat len, fun j hj => ?_, fun j hj => ?_⟩
  · rw [writeLength_read _ _ (by omega), if_neg (by omega), Nat.add_sub_cancel_left]
  · rw [writeLength_read _ _ (by omega), if_pos hj]

/-! ## The hex digest -/

/-- In a concatenation of blocks of `c` elements each, element `c * k + j` is element `j` of block `k`. -/
theorem flatMap_getD_of_length_eq {α β : Type} {f : α → List β} {c : Nat}
    (hf : ∀ a, (f a).length = c) {l : List α} {k j : Nat} (hk : k < l.length) (hj : j < c)
    (a : α) (b : β) : (l.flatMap f).getD (c * k + j) b = (f (l.getD k a)).getD j b := by
  induction l generalizing k with
  | nil => exact absurd hk (Nat.not_lt_zero k)
  | cons x l ih =>
    rw [List.flatMap_cons]
    cases k with
    | zero => rw [Nat.mul_zero, Nat.zero_add, List.getD_append _ _ _ _ (by rw [hf]; exact hj),
        List.getD_cons_zero]
    | succ k =>
      have hpast : c * (k + 1) + j = c + (c * k + j) := by rw [Nat.mul_succ]; omega
      rw [hpast, List.getD_append_right _ _ _ _ (by rw [hf]; omega), hf, Nat.add_sub_cancel_left,
        ih (Nat.lt_of_succ_lt_succ hk), List.getD_cons_succ]

theorem hexByte_length (v : Byte) : (hexByte v).length = 2 := rfl

theorem hexWord_length (v : Word) : (hexWord v).length = 8 := rfl

/-- R144: the characters of a word are those of its bytes, from the least significant. -/
theorem hexWord_eq_flatMap (v : Word) :
    hexWord v = (List.range 4).flatMap fun m => hexByte (v.extractLsb' (8 * m) 8) := rfl

/-- R144: the characters of a digest are those of its words. -/
theorem hexDigest_eq_flatMap (q : ABCD) :
    hexDigest q = [q.a, q.b, q.c, q.d].flatMap hexWord := by
  simp [hexDigest]

/-- R144: the two characters of byte `m` of word `k` stand at `8*k + 2*m`. -/
theorem hexDigest_getD (q : ABCD) {k m i : Nat} (hk : k < 4) (hm : m < 4) (hi : i < 2) :
    (hexDigest q).getD (8 * k + (2 * m + i)) 0 =
      (hexByte (([q.a, q.b, q.c, q.d].getD k 0).extractLsb' (8 * m) 8)).getD i 0 := by
  have hrange : m < (List.range 4).length := by rwa [List.length_range]
  rw [hexDigest_eq_flatMap, flatMap_getD_of_length_eq hexWord_length hk (by omega) 0,
    hexWord_eq_flatMap, flatMap_getD_of_length_eq (fun _ => hexByte_length _) hrange hi 0,
    List.getD_eq_getElem _ _ hrange, List.getElem_range]

theorem hexDigit_eq : ∀ v : BitVec 4, hexDigit v = hexAlphabet.getD v.toNat 0 := by decide

theorem hexByte_high (v : Byte) :
    (hexByte v).getD 0 0 = hexAlphabet.getD (v.toNat / 16 % 16) 0 := by
  rw [hexByte, List.getD_cons_zero, hexDigit_eq, BitVec.extractLsb'_toNat,
    Nat.shiftRight_eq_div_pow]

theorem hexByte_low (v : Byte) : (hexByte v).getD 1 0 = hexAlphabet.getD (v.toNat % 16) 0 := by
  rw [hexByte, List.getD_cons_succ, List.getD_cons_zero, hexDigit_eq, BitVec.extractLsb'_toNat,
    Nat.shiftRight_zero]

theorem extractByte_toNat (v : Word) (m : Nat) :
    (v.extractLsb' (8 * m) 8).toNat = v.toNat / 2 ^ (8 * m) % 256 := by
  rw [BitVec.extractLsb'_toNat, Nat.shiftRight_eq_div_pow]

/-- Settles O42: the two characters at `8*k + 2*m` are those of byte `m` of word `k` (`hexDigest_getD`), and each is the
digit of its nibble (`hexByte_high`, `hexByte_low`). -/
theorem hexDigestOrder : Obligations.HexDigestOrder := by
  intro q k m hk hm
  refine ⟨hexDigest_length q, ?_, ?_⟩
  · refine (hexDigest_getD q hk hm (i := 0) (by decide)).trans ?_
    rw [hexByte_high, extractByte_toNat, Nat.pow_add, ← Nat.div_div_eq_div_mul]
    congr 1; omega
  · refine (hexDigest_getD q hk hm (i := 1) (by decide)).trans ?_
    rw [hexByte_low, extractByte_toNat]
    congr 1; omega

end Sys2Proof.Proofs
end

section
/-! PROOF. EncodingError and the order of the checks (spec/60_exceptions.md R165 to R167): the three checks of a command
(O8), and a text with a lone surrogate (O22). -/

namespace Sys2Proof.Proofs

open Sys2Proof Sys2Proof.Machine

/-! ## The order of the checks -/

/-- R165 (2): after a legal header the phase is checked, before the payload is taken from the port. -/
theorem step_wrongPhase {w : Word} {h : Header} {s : State} {ts : List Transfer}
    (hs : s.seq = .cIdle) (hp : s.port = .header w :: ts) (hw : decodeHeader w = .ok h)
    (hreset : h ≠ .reset) (hphase : s.phase ≠ .ready) :
    step s = .refused (.wrongPhase s.phase) := by
  have hruns : ¬ headerRuns h s = true := by
    rw [headerRuns_iff]
    exact not_or.2 ⟨hreset, hphase⟩
  have hf : fetch s = .refuse (.wrongPhase s.phase) := by
    simp only [fetch_idle hs, fetchCommand, hp, hw, if_neg hruns]
  simp only [step, hf]

/-- R165 (3), R126: the state in which a text ends at its first unit in error depends on the units before it only. -/
theorem exec_appendText_firstError {before after : List Half} {bs : List Byte} {u : Half}
    {c : EncodingCause} {s : State} (hs : s.phase = .ready) (hb : encodeText before = .ok bs)
    (hu : encodeUnit u after.head? = .error c) :
    exec (.appendText (before ++ u :: after)) s = .next (takeEncodingError (pushBytes bs s)) := by
  rw [exec_appendText hs, appendUnits_first_error before after bs u c s hb hu]

/-- Settles O8: the header by `step_illegalHeader`, the phase by `step_wrongPhase`, the payload by
`exec_appendText_firstError`, once with all that follows the unit in error and once with the next unit only. -/
theorem checksAreMadeInOrder : Obligations.ChecksAreMadeInOrder := by
  refine ⟨fun s w ts r hs hp hw => step_illegalHeader hw hs hp,
    fun s w ts h => step_wrongPhase, fun s before after bs u c hs hb hu => ?_⟩
  have hnext : encodeUnit u (after.take 1).head? = .error c := by
    rwa [List.head?_take, if_neg Nat.one_ne_zero]
  refine ⟨_, exec_appendText_firstError hs hb hu, exec_appendText_firstError hs hb hnext,
    takeEncodingError_phase _, ?_⟩
  rw [takeEncodingError_out, pushBytes_out, encodingErrorCode]

/-! ## A lone surrogate -/

/-- R166, R169: in FAULTED every command but RESET is refused. -/
theorem exec_refused_of_faulted {i : Instr} {t : State} (hi : isCommand i = true)
    (hreset : i ≠ .reset) (ht : t.phase = .faulted) :
    exec i t = .refused (.wrongPhase .faulted) := by
  have hready : t.phase ≠ .ready := by simp [ht]
  rw [exec_refused hi hreset hready, ht]

/-- Settles O22: EncodingError by `exec_appendText_loneSurrogate`; in the state it leaves, of which the phase alone is
used, the refusals by `exec_refused_of_faulted` and the fresh context by `exec_reset`. -/
theorem loneSurrogateTakesEncodingError : Obligations.LoneSurrogateTakesEncodingError := by
  intro units s hs hlone
  obtain ⟨t, ht, hphase, hout⟩ := exec_appendText_loneSurrogate hs hlone
  obtain ⟨hseq, hport⟩ := exec_command_surroundings rfl ht
  refine ⟨t, ht, hphase, hout, rfl, hseq, hport,
    fun i hi hreset => exec_refused_of_faulted hi hreset hphase, ?_⟩
  exact ⟨respond .ok (freshContext t), exec_reset t, rfl, rfl, rfl, rfl⟩

end Sys2Proof.Proofs
end

section
/-! PROOF. The decoder and the fetch (spec/30_encoding.md R72 to R75, R81): encode and decode agree (O2), words written
out by hand (O1), the ignored bits of a byte transfer (O5), the step on a whole command (O6), on one that has not all
arrived (O9) and on one that is refused (O15). -/

namespace Sys2Proof.Proofs

open Sys2Proof Sys2Proof.Machine

/-! ## Encode and decode -/

/-- R81: the index of a micro-operation decodes to it. -/
theorem decodeMicroOp_microOpIndex {i : Instr} {u : BitVec 7} (h : microOpIndex i = some u) :
    decodeMicroOp u = .instr i [] := by
  cases i <;> cases h <;> rfl

/-- R74: a payload that has all arrived is made into its instruction. -/
theorem withPayload_data (h : Header) (mk : List Half → Instr) (es : List Half)
    (rest : List Transfer) :
    withPayload h es.length mk (es.map .data ++ rest) = .instr (mk es) rest := by
  rw [withPayload, takePayload_data]

/-- R72 to R75: the transfers of a command decode to it, and what follows them is left. -/
theorem decode_commandTransfers {i : Instr} (hi : microOpIndex i = none) (hwf : i.wf = true)
    (rest : List Transfer) :
    decode (.transfers (commandTransfers i ++ rest)) = .instr i rest := by
  cases i with
  | reset => exact decode_legalHeader (decodeHeader_headerWord 0 (by decide)).1 rest
  | finalize raw =>
    obtain ⟨-, -, -, -, hw⟩ := decodeHeader_headerWord 0 (by decide)
    exact decode_legalHeader (hw raw) rest
  | appendText units =>
    obtain ⟨-, hw, -, -, -⟩ := decodeHeader_headerWord units.length (of_decide_eq_true hwf)
    exact (decode_legalHeader hw _).trans (withPayload_data _ _ units rest)
  | appendAscii chars =>
    obtain ⟨-, -, hw, -, -⟩ := decodeHeader_headerWord chars.length (of_decide_eq_true hwf)
    exact (decode_legalHeader hw _).trans (withPayload_data _ _ chars rest)
  | appendBytes bytes =>
    obtain ⟨-, -, -, hw, -⟩ := decodeHeader_headerWord bytes.length (of_decide_eq_true hwf)
    have hpayload := withPayload_data (.appendBytes bytes.length)
      (fun es => .appendBytes (es.map byteOfTransfer)) (bytes.map transferOfByte) rest
    rw [byteOfTransfer_transferOfByte, List.length_map, List.map_map] at hpayload
    exact (decode_legalHeader hw _).trans hpayload
  | _ => cases hi

/-- Settles O2: the two encoding spaces apart, micro-operations by `decodeMicroOp_microOpIndex`, commands by
`decode_commandTransfers`. -/
theorem encodedInstructionDecodesBack : Obligations.EncodedInstructionDecodesBack := by
  intro i hwf
  rw [encode]
  cases hi : microOpIndex i with
  | some u => exact decodeMicroOp_microOpIndex hi
  | none => exact decode_commandTransfers hi hwf

/-- Settles O1: closed codes, which the decoder evaluates. -/
theorem writtenOutWordsDecode : Obligations.WrittenOutWordsDecode := by
  unfold Obligations.WrittenOutWordsDecode
  decide

/-- R74: an APPEND_BYTES element is its transfer's bits 7:0. -/
theorem map_byteOfTransfer (es : List Half) :
    es.map byteOfTransfer = (es.map fun e => e.toNat % 256).map (BitVec.ofNat 8) := by
  rw [List.map_map]
  exact List.map_congr_left fun e _ => asciiByte_eq e

/-- Settles O5: the payload is taken whole (`withPayload_data`), and its bytes are a function of the low bits
(`map_byteOfTransfer`). -/
theorem byteTransferHighBitsIgnored : Obligations.ByteTransferHighBitsIgnored := by
  intro es es' rest w hop hlen hlow
  have hw : decodeHeader w = .ok (.appendBytes es.length) := decodeHeader_of_inRow ⟨hop, hlen⟩
  have hbytes : es.map byteOfTransfer = es'.map fun e => BitVec.ofNat 8 e.toNat := by
    rw [map_byteOfTransfer, hlow, ← map_byteOfTransfer]
    exact List.map_congr_left fun e _ => rfl
  rw [List.cons_append, decode_legalHeader hw, ← hbytes]
  exact withPayload_data _ _ es rest

/-! ## The step in `C_IDLE` -/

/-- Settles O6: `step_command`, whose `consume` is the state without the transfers taken. -/
theorem stepRunsTheDecodedCommand : Obligations.StepRunsTheDecodedCommand :=
  fun _ _ _ hs hd => step_command hs hd

/-- The three headers with a payload, as `headerPayload` names them. -/
theorem headerPayload_eq_some_iff (h : Header) (n : Nat) :
    headerPayload h = some n ↔ h = .appendText n ∨ h = .appendAscii n ∨ h = .appendBytes n := by
  cases h <;> simp [headerPayload]

section
variable {h : Header} {n : Nat} (hn : headerPayload h = some n)
include hn

theorem ne_reset_of_headerPayload : h ≠ .reset := by
  rintro rfl
  cases hn

/-- R74: a payload that has not all arrived is waited for. -/
theorem decodePayload_short {es : List Half} (hlt : es.length < n) :
    decodePayload h (es.map .data) = .waiting h := by
  have htake : takePayload n (es.map .data) = .ok none := takePayload_short es n hlt
  rcases (headerPayload_eq_some_iff h n).1 hn with rfl | rfl | rfl <;>
    simp only [decodePayload, withPayload, htake]

/-- R189: a header among the elements of a payload is an overlapping command. -/
theorem decodePayload_cut {es : List Half} (v : Word) (ts : List Transfer) (hlt : es.length < n) :
    decodePayload h (es.map .data ++ .header v :: ts) = .illegal .overlappingCommand := by
  have htake := takePayload_cut es n v ts hlt
  rcases (headerPayload_eq_some_iff h n).1 hn with rfl | rfl | rfl <;>
    simp only [decodePayload, withPayload, htake]

end

section
variable {s : State} {w : Word} {h : Header} {ts : List Transfer} (hs : s.seq = .cIdle)
  (hp : s.port = .header w :: ts) (hw : decodeHeader w = .ok h) (hready : s.phase = .ready)
include hs hp hw hready

/-- R171: an engine that waits for the rest of a payload holds its state. -/
theorem step_of_waiting {h' : Header} (hd : decodePayload h ts = .waiting h') :
    step s = .next s := by
  have hruns : headerRuns h s = true := (headerRuns_iff h s).2 (.inr hready)
  have hf : fetch s = .wait := by simp only [fetch_idle hs, fetchCommand, hp, hw, if_pos hruns, hd]
  simp only [step, hf]

theorem step_of_illegalPayload {r : Reject} (hd : decodePayload h ts = .illegal r) :
    step s = .refused (.illegal r) := by
  have hruns : headerRuns h s = true := (headerRuns_iff h s).2 (.inr hready)
  have hf : fetch s = .refuse (.illegal r) := by
    simp only [fetch_idle hs, fetchCommand, hp, hw, if_pos hruns, hd]
  simp only [step, hf]

end

theorem step_of_emptyPort {s : State} (hs : s.seq = .cIdle) (hp : s.port = []) :
    step s = .next s := by
  have hf : fetch s = .wait := by simp only [fetch_idle hs, fetchCommand, hp]
  simp only [step, hf]

/-- Settles O9: nothing to fetch (`step_of_emptyPort`), or a payload still short (`decodePayload_short`). -/
theorem idleEngineHoldsItsState : Obligations.IdleEngineHoldsItsState := by
  refine fun s hs => ⟨step_of_emptyPort hs, fun w h n es hready hw hn hp hlt => ?_⟩
  have hshort := decodePayload_short ((headerPayload_eq_some_iff h n).2 hn) hlt
  exact step_of_waiting hs hp hw hready hshort

/-- Settles O15: the phase by `exec_refused`, an illegal header by `step_illegalHeader`; a header inside a payload is an
overlap in READY (`decodePayload_cut`), and in another phase the command it cuts is refused first
(`step_wrongPhase`). -/
theorem undefinedCommandsAreRefused : Obligations.UndefinedCommandsAreRefused := by
  refine ⟨fun i s => exec_refused, fun s w ts r hs hp hw => step_illegalHeader hw hs hp, ?_⟩
  intro s w v h n es ts hs hp hw hn hlt
  have hn : headerPayload h = some n := (headerPayload_eq_some_iff h n).2 hn
  by_cases hready : s.phase = .ready
  · exact ⟨_, step_of_illegalPayload hs hp hw hready (decodePayload_cut hn v ts hlt)⟩
  · exact ⟨_, step_wrongPhase hs hp hw (ne_reset_of_headerPayload hn) hready⟩

end Sys2Proof.Proofs
end

section
/-! PROOF. The sequencer and the round step (spec/41_compress.md R101, R106, R108): the 66 states of one COMPRESS (O34), the
step out of `C_IDLE` (O7), and a round step as a bijection (O36). -/

namespace Sys2Proof.Proofs

open Sys2Proof Sys2Proof.Machine

/-! ## The 66 states of one COMPRESS -/

/-- R102, R106: `C_LOAD` leads to the state before STEP 0. -/
theorem step_startCompress (s : State) :
    step (startCompress s) = .next (atStep s 0 (by decide) s.h) := by
  rw [step_microOp (u := 0x40) (i := .load) rfl rfl, exec_load]
  rfl

/-- R106: after LOAD and `n` steps the sequencer stands before STEP `n`, or at FEEDFORWARD where `n` is 64. -/
theorem run_startCompress (s : State) (n : Nat) (hn : n ≤ 64) :
    Host.Core.run Sys2Proof.core (n + 1) (startCompress s) =
      .next (atStep s n hn (roundSteps s.buf.word n s.h)) := by
  induction n with
  | zero => exact run_next (step_startCompress s) 0
  | succ n ih =>
    rw [run_succ _ _ _ (ih (by omega)), step_atStep s n (by omega)]
    rfl

/-- R106, R81: the micro-operation index of a state inside a COMPRESS. -/
theorem seqIndex_atStep (s : State) {n : Nat} (hn : n ≤ 64) (w : ABCD) :
    seqIndex (atStep s n hn w) = some (if n = 64 then 0x41 else BitVec.ofNat 7 n) := by
  by_cases h : n = 64
  · simp [seqIndex, atStep, h]
  · have hlt : n < 64 := by omega
    simp [seqIndex, atStep, h, hlt]

/-- R103, R106: FEEDFORWARD ends the COMPRESS in `C_IDLE`. The hidden registers are drawn there, so the index the
sequencer counted with is gone; the working registers stand as a variable, as in `endCompress`. -/
theorem step_feedforward {s : State} (hs : s.seq = .cIdle) (w : ABCD) :
    step (atStep s 64 (by decide) w) = .next (endCompress w (s.h.add w) s) := by
  rw [step_microOp (u := 0x41) (i := .feedforward) rfl rfl, exec_feedforward]
  cases s
  cases hs
  rfl

/-- Settles O34: LOAD by `step_startCompress`, the 64 steps by `run_startCompress`, FEEDFORWARD by `step_feedforward`;
what the last leaves is what COMPRESS at once leaves (`compress_eq`). -/
theorem sequencerRunsOneCompress : Obligations.SequencerRunsOneCompress := by
  refine fun s hs => ⟨fun n hn => ?_, ?_⟩
  · cases n with
    | zero => exact ⟨startCompress s, rfl, rfl⟩
    | succ n =>
      refine ⟨_, run_startCompress s n (by omega), (seqIndex_atStep s (by omega) _).trans ?_⟩
      simp
  · rw [compress_eq, compressFn]
    exact (run_succ 65 _ _ (run_startCompress s 64 (by decide))).trans (step_feedforward hs _)

/-- Settles O7: the state's index is that of the micro-operation (`step_microOp`), and a micro-operation completes
(`exec_microOp`). -/
theorem stepRunsTheSequencedMicroOp : Obligations.StepRunsTheSequencedMicroOp := by
  intro s i u hseq hd
  have hu : seqIndex s = some u ∧ u.toNat ≤ 0x41 := by
    rcases hseq with ⟨hs, rfl⟩ | ⟨hs, rfl⟩ | ⟨hs, hi, rfl⟩
    · simp [seqIndex, hs]
    · simp [seqIndex, hs]
    · rw [BitVec.toNat_ofNat]
      exact ⟨by simp [seqIndex, hs, hi], by omega⟩
  obtain ⟨j, hj, hcommand⟩ := decodeMicroOp_used u hu.2
  obtain ⟨rfl, -⟩ := Decoded.instr.inj (hd.symm.trans hj)
  obtain ⟨w, h, hexec⟩ := exec_microOp hcommand s
  exact ⟨_, hexec, by rw [step_microOp hu.1 hj, hexec, afterMicroOp]⟩

/-! ## The round step -/

/-- R8: a rotation by `s` and then by `32 - s` goes all the way round: the second one puts the bits that the first
brought in at the bottom back on top. -/
theorem rotl32_rotl32 (x : Word) {s : Nat} (hs : s ≤ 32) : rotl32 (rotl32 x s) (32 - s) = x := by
  have hpow : 2 ^ 32 = 2 ^ (32 - s) * 2 ^ s := by rw [← Nat.pow_add, Nat.sub_add_cancel hs]
  have hlow : x.toNat / 2 ^ (32 - s) < 2 ^ s := Nat.div_lt_of_lt_mul (hpow ▸ x.isLt)
  have hy : (rotl32 x s).toNat =
      x.toNat / 2 ^ (32 - s) + 2 ^ s * (x.toNat % 2 ^ (32 - s)) := by
    rw [rotl32_toNat x hs, hpow, Nat.mul_mod_mul_right, Nat.add_comm, Nat.mul_comm]
  apply BitVec.eq_of_toNat_eq
  rw [rotl32_toNat _ (Nat.sub_le 32 s), Nat.sub_sub_self hs, hy, hpow,
    Nat.mul_comm (2 ^ (32 - s)) (2 ^ s), Nat.mul_mod_mul_right, Nat.add_mul_mod_self_left,
    Nat.mod_eq_of_lt hlow, Nat.add_mul_div_left _ _ (Nat.two_pow_pos s), Nat.div_eq_of_lt hlow,
    Nat.zero_add, Nat.div_add_mod']

/-- R108 (b): the registers before a round step: `b`, `c` and `d` stand in the three words it moves, and `a` is left
when the rotation is undone and the other summands are taken away. -/
def undoRoundStep (f : RoundFn) (x : Word) (r : Nat) (t : Word) (q : ABCD) : ABCD :=
  ⟨rotl32 (q.b - q.c) (32 - r) - (f.eval q.c q.d q.a + x + t), q.c, q.d, q.a⟩

section
variable (f : RoundFn) (x t : Word) {r : Nat} (hr : r ≤ 32)
include hr

theorem undoRoundStep_roundStep : Function.LeftInverse (undoRoundStep f x r t) (roundStep f x r t) := by
  intro q
  have ha : rotl32 (q.b + rotl32 (q.a + f.eval q.b q.c q.d + x + t) r - q.b) (32 - r) -
      (f.eval q.b q.c q.d + x + t) = q.a := by
    rw [BitVec.add_comm q.b, BitVec.add_sub_cancel, rotl32_rotl32 _ hr, BitVec.add_assoc q.a,
      BitVec.add_assoc q.a, BitVec.add_sub_cancel]
  rw [undoRoundStep, roundStep, ha]

theorem roundStep_undoRoundStep : Function.RightInverse (undoRoundStep f x r t) (roundStep f x r t) := by
  intro q
  have hround := rotl32_rotl32 (q.b - q.c) (Nat.sub_le 32 r)
  rw [Nat.sub_sub_self hr] at hround
  have hb : q.c + rotl32 (rotl32 (q.b - q.c) (32 - r) - (f.eval q.c q.d q.a + x + t) +
      f.eval q.c q.d q.a + x + t) r = q.b := by
    rw [BitVec.add_assoc _ (f.eval q.c q.d q.a), BitVec.add_assoc _ (_ + x), BitVec.sub_add_cancel,
      hround, BitVec.add_comm, BitVec.sub_add_cancel]
  rw [undoRoundStep, roundStep, hb]

end

/-- Settles O36: `undoRoundStep` is the inverse on both sides. -/
theorem roundStepIsABijection : Obligations.RoundStepIsABijection := by
  intro f x t r _ hr
  have hr : r ≤ 32 := Nat.le_trans hr (by decide)
  exact Function.bijective_iff_has_inverse.2
    ⟨undoRoundStep f x r t, undoRoundStep_roundStep f x t hr, roundStep_undoRoundStep f x t hr⟩

end Sys2Proof.Proofs
end

section
/-! PROOF. What every step keeps (spec/10_state.md, spec/20_memory.md section 1): the invariant at power-on (O52) and along
every step (O53), canonical buffers (O54), the idle sequencer around a command (O35), and power-on (O10). -/

namespace Sys2Proof.Proofs

open Sys2Proof Sys2Proof.Machine

/-! ## Canonical buffers -/

/-- A byte that does not read as zero stands in a cell. -/
theorem mem_of_read_ne_zero {m : Memory} {j : Nat} (h : m.read j ≠ 0) : (j, m.read j) ∈ m := by
  induction m with
  | nil => exact absurd (Memory.read_nil j) h
  | cons c m ih =>
    obtain ⟨k, v⟩ := c
    rw [Memory.read] at h ⊢
    split_ifs at h ⊢ with hk
    · rw [hk]
      exact List.mem_cons_self
    · exact List.mem_cons_of_mem _ (ih h)

/-- In a buffer with rising offsets every cell is read at its offset: no other cell stands before it there. -/
theorem read_of_mem {m : Memory} (hm : m.Pairwise fun p q => p.1 < q.1) {c : Host.Cell}
    (hc : c ∈ m) : m.read c.1 = c.2 := by
  induction m with
  | nil => cases hc
  | cons d m ih =>
    obtain ⟨k, v⟩ := d
    obtain ⟨hhead, htail⟩ := List.pairwise_cons.1 hm
    rw [Memory.read]
    rcases List.mem_cons.1 hc with rfl | hc
    · exact if_pos rfl
    · rw [if_neg (hhead c hc).ne, ih htail hc]

/-- A cell of a canonical buffer is a cell of every buffer that reads as it does. -/
theorem subset_of_read_eq {m m' : Memory} (hm : m.wf)
    (h : ∀ j, j < 64 → m.read j = m'.read j) : m ⊆ m' := by
  obtain ⟨hrising, hcells⟩ := hm
  intro c hc
  obtain ⟨hlt, hne⟩ := hcells c hc
  have hread : m'.read c.1 = c.2 := (h c.1 hlt).symm.trans (read_of_mem hrising hc)
  have hmem : (c.1, m'.read c.1) ∈ m' := mem_of_read_ne_zero (hread ▸ hne)
  rwa [hread] at hmem

/-- Settles O54: two lists of rising offsets with the same cells (`subset_of_read_eq`) are equal. -/
theorem canonicalBuffersAreEqual : Obligations.CanonicalBuffersAreEqual := by
  intro m m' hm hm' h
  have : Std.Irrefl fun p q : Host.Cell => p.1 < q.1 := ⟨fun p => Nat.lt_irrefl p.1⟩
  have : Std.Antisymm fun p q : Host.Cell => p.1 < q.1 := ⟨fun _ _ h h' => absurd h' h.asymm⟩
  exact List.Subset.antisymm_of_pairwise hm.1 hm'.1 (subset_of_read_eq hm h)
    (subset_of_read_eq hm' fun j hj => (h j hj).symm)

/-! ## The invariant -/

/-- Settles O52: nothing is listed in the buffer, and power-on is neither READY nor in `C_STEP`. -/
theorem invariantHoldsAtPowerOn : Obligations.InvariantHoldsAtPowerOn :=
  ⟨Memory.wf_nil, nofun, nofun⟩

/-- R27, R28: drains move the counter in steps of 64, which divide `2^64`. -/
theorem pushBytes_totalLength_mod (p : List Byte) {s : State} (h : s.totalLength.toNat % 64 = 0) :
    (pushBytes p s).totalLength.toNat % 64 = 0 := by
  rw [pushBytes_totalLength, BitVec.toNat_add, BitVec.toNat_ofNat]
  omega

/-- What a command keeps of the invariant; the clause on `C_STEP` is not the command's. -/
theorem exec_command_inv {i : Instr} {s t : State} (hi : isCommand i = true)
    (h : exec i s = .next t) (hwf : s.buf.wf)
    (hcount : s.phase = .ready → s.totalLength.toNat % 64 = 0) :
    t.buf.wf ∧ (t.phase = .ready → t.totalLength.toNat % 64 = 0) := by
  rcases exec_command_cases hi h with ⟨-, rfl⟩ | ⟨hs, p, -, rfl⟩ | ⟨-, us, c, p, -, -, rfl⟩ |
    ⟨-, raw, -, rfl⟩
  · exact ⟨hwf, fun _ => rfl⟩
  · exact ⟨pushBytes_wf p s hwf, fun _ => pushBytes_totalLength_mod p (hcount hs)⟩
  · exact ⟨dropContext_buf_wf _, nofun⟩
  · exact ⟨dropContext_buf_wf (padAndCompress s), nofun⟩

/-- R106: the sequencer leaves the context alone, and names a step where it goes on in `C_STEP`. -/
theorem advanceSeq_inv {s : State} (h : s.Inv) : (advanceSeq s).Inv := by
  obtain ⟨hwf, hcount, hindex⟩ := h
  unfold advanceSeq
  split
  next => exact ⟨hwf, hcount, hindex⟩
  next => exact ⟨hwf, hcount, fun _ => Nat.zero_lt_succ 63⟩
  next =>
    split
    next hlt => exact ⟨hwf, hcount, fun _ => Nat.succ_lt_succ hlt⟩
    next => exact ⟨hwf, hcount, nofun⟩
  next => exact ⟨hwf, hcount, nofun⟩

/-- Settles O53: a command by `exec_command_inv`, begun and ended in `C_IDLE`; a micro-operation writes nothing the
invariant speaks of, and the sequencer then moves on by `advanceSeq_inv`. -/
theorem everyStepKeepsTheInvariant : Obligations.EveryStepKeepsTheInvariant := by
  intro s t hinv h
  rcases step_cases h with ⟨hs, i, rest, hi, hexec⟩ | ⟨-, w, hash, rfl⟩ | rfl
  · obtain ⟨hwf, hcount, -⟩ := hinv
    obtain ⟨hwf', hcount'⟩ := exec_command_inv hi hexec hwf hcount
    have hidle : t.seq = .cIdle := (exec_command_surroundings hi hexec).1.trans hs
    exact ⟨hwf', hcount', fun hstep => nomatch hidle.symm.trans hstep⟩
  · exact advanceSeq_inv hinv
  · exact hinv

/-! ## Idle before and after a command, and power-on -/

/-- Settles O35: `exec_command_surroundings`; a step from `C_IDLE` runs a command or nothing (`step_cases`). -/
theorem commandsBeginAndEndIdle : Obligations.CommandsBeginAndEndIdle := by
  refine ⟨fun i s t hi h => ?_, fun s t hs h => ?_⟩
  · obtain ⟨hseq, hport⟩ := exec_command_surroundings hi h
    exact ⟨hport.symm, hseq.symm⟩
  · rcases step_cases h with ⟨-, i, rest, hi, hexec⟩ | ⟨hbusy, -⟩ | rfl
    · exact (exec_command_surroundings hi hexec).1.trans hs
    · exact absurd hs hbusy
    · exact hs

/-- Settles O10: phase UNINIT, in which `exec_refused` leaves RESET only. -/
theorem powerOnNeedsReset : Obligations.PowerOnNeedsReset :=
  ⟨rfl, rfl, fun _ hi hreset => exec_refused hi hreset nofun,
    respond .ok (freshContext State.reset), exec_reset _, rfl⟩

end Sys2Proof.Proofs
end

section
/-! PROOF. Payloads and their bytes (spec/42_append.md R120 to R125): a payload that does not fill the buffer (O18), a text
without a lone surrogate (O21), and the bytes of a character read back (O25). -/

namespace Sys2Proof.Proofs

open Sys2Proof Sys2Proof.Machine

/-- Settles O18: `pushBytes_short`, for the payload of an append command. -/
theorem shortAppendLeavesTheRest : Obligations.ShortAppendLeavesTheRest := by
  intro bytes s hs hshort
  obtain ⟨hh, hw, hi, htotal, hread⟩ := pushBytes_short bytes s hshort
  obtain ⟨hphase, hout, hseq, hport⟩ := respond_pushBytes_surroundings hs bytes
  refine ⟨_, exec_append hs rfl, ?_, fun j hle hlt => ?_, fun j hj => ?_,
    hphase, hh, htotal, hw, hi, hseq, hport, hout⟩
  · exact (pushBytes_bufferLength bytes s).trans (Nat.mod_eq_of_lt hshort)
  · exact (hread j).trans (if_pos ⟨hle, hlt⟩)
  · exact (hread j).trans (if_neg (by omega))

/-- Settles O21: the encoder accepts the text (`encodeText_ok_iff`), so the command is the push of its bytes. -/
theorem wellPairedTextCompletes : Obligations.WellPairedTextCompletes := by
  intro units s hs hpaired
  obtain ⟨bs, hbs⟩ := (encodeText_ok_iff units).2 hpaired
  exact ⟨bs, _, hbs, exec_append hs (pushedBytes_appendText hbs), by rw [foldl_pushByte],
    respond_pushBytes_surroundings hs bs⟩

/-! ## The code point of the bytes -/

/-- R125: the three forms of a unit that is encoded alone, by its range. -/
theorem encodeUnit_one_cases {u : Half} {next : Option Half} {bs : List Byte}
    (h : encodeUnit u next = .one bs) :
    (u.toNat < 0x80 ∧ bs = [BitVec.ofNat 8 u.toNat]) ∨ (u.toNat < 0x800 ∧ bs = utf8Two u) ∨
      bs = utf8Three u := by
  have hhigh : isHigh u = false :=
    Bool.eq_false_iff.2 fun hu => encodeUnit_high_ne_one hu next bs h
  have hlow : isLow u = false :=
    Bool.eq_false_iff.2 fun hl => nomatch (encodeUnit_low hl next).symm.trans h
  by_cases h1 : u.toNat < 0x80
  · exact .inl ⟨h1, (Encoded.one.inj ((encodeUnit_oneByte next h1).symm.trans h)).symm⟩
  by_cases h2 : u.toNat < 0x800
  · have htwo := encodeUnit_twoBytes next (Nat.le_of_not_lt h1) h2
    exact .inr (.inl ⟨h2, (Encoded.one.inj (htwo.symm.trans h)).symm⟩)
  · have hthree := encodeUnit_threeBytes next (Nat.le_of_not_lt h2) hhigh hlow
    exact .inr (.inr (Encoded.one.inj (hthree.symm.trans h)).symm)

theorem utf8Value_utf8Two {u : Half} (h : u.toNat < 0x800) : utf8Value (utf8Two u) = u.toNat := by
  simp only [utf8Two_eq u h, utf8Value, BitVec.toNat_ofNat]
  omega

theorem utf8Value_utf8Three (u : Half) : utf8Value (utf8Three u) = u.toNat := by
  have := u.isLt
  simp only [utf8Three_eq, utf8Value, BitVec.toNat_ofNat]
  omega

theorem utf8Value_utf8Four {cp : Nat} (h : cp ≤ 0x10FFFF) :
    utf8Value (utf8Four (BitVec.ofNat 21 cp)) = cp := by
  simp only [utf8Four_eq cp h, utf8Value, BitVec.toNat_ofNat]
  omega

/-- R125: two units are encoded together only where a high surrogate stands before a low one. -/
theorem surrogates_of_encodeUnit_pair {u v : Half} {bs : List Byte}
    (h : encodeUnit u (some v) = .pair bs) : isHigh u = true ∧ isLow v = true := by
  cases hhigh : isHigh u with
  | true =>
    cases hlow : isLow v with
    | true => exact ⟨rfl, rfl⟩
    | false => cases (encodeUnit_high_other hhigh hlow).symm.trans h
  | false =>
    cases hlow : isLow u with
    | true => cases (encodeUnit_low hlow (some v)).symm.trans h
    | false =>
      obtain ⟨bs', hone⟩ := encodeUnit_plain hhigh hlow (some v)
      cases hone.symm.trans h

/-- Settles O25: by the form of the encoding, each read back by its own lemma; the number of bytes of a unit is
`encodeUnit_one_length`. -/
theorem encodedBytesStandForTheirCodePoint : Obligations.EncodedBytesStandForTheirCodePoint := by
  refine ⟨fun u next bs h => ⟨?_, encodeUnit_one_length h⟩, fun u v bs h => ?_⟩
  · rcases encodeUnit_one_cases h with ⟨hu, rfl⟩ | ⟨hu, rfl⟩ | rfl
    · exact Nat.mod_eq_of_lt (hu.trans (by decide))
    · exact utf8Value_utf8Two hu
    · exact utf8Value_utf8Three u
  · obtain ⟨hhigh, hlow⟩ := surrogates_of_encodeUnit_pair h
    cases (encodeUnit_pair hhigh hlow).symm.trans h
    exact ⟨utf8Value_utf8Four (pairCodePoint_le hhigh hlow), rfl⟩

end Sys2Proof.Proofs
end

section
/-! PROOF. The padded message (spec/43_finalize.md R141, R145): its blocks (O47) and the three digests of the source
(O48). -/

namespace Sys2Proof.Proofs

open Sys2Proof Sys2Proof.Machine

/-- Settles O47: the length by `paddedMessage_length`, the two ends by the definition. -/
theorem paddedMessageBlocks : Obligations.PaddedMessageBlocks := by
  refine fun m => ⟨paddedMessage_length m, ?_, List.suffix_append _ _⟩
  rw [paddedMessage, List.append_assoc]
  exact List.prefix_append _ _

/-- Settles O48: one block each, evaluated. -/
theorem sourceDigests : Obligations.SourceDigests := by
  unfold Obligations.SourceDigests
  decide +kernel

end Sys2Proof.Proofs
end

section
/-! PROOF. The one-shot pseudo-commands (spec/44_oneshot.md R155, R156): the commands of a long text (O49), HASH (O50) and
HASH_ASCII (O51). -/

namespace Sys2Proof.Proofs

open Sys2Proof Sys2Proof.Machine

/-! ## The commands of a text -/

/-- R75: the bound of the header is far above the two units a cut needs. -/
theorem two_le_payloadMax : 2 ≤ payloadMax := by decide

theorem lt_payloadBound_of_le {n : Nat} (h : n ≤ payloadMax) : n < payloadBound :=
  Nat.lt_of_le_of_lt h (by decide)

theorem textCommands_wf (units : List Half) : ∀ i ∈ textCommands units, i.wf = true := by
  refine List.forall_mem_map.2 fun p hp => decide_eq_true (lt_payloadBound_of_le ?_)
  exact cutPayload_length (textCut_bounds two_le_payloadMax) _ _ (Nat.le_add_left _ _) p hp

theorem asciiCommands_wf (chars : List Half) : ∀ i ∈ asciiCommands chars, i.wf = true := by
  refine List.forall_mem_map.2 fun p hp => decide_eq_true (lt_payloadBound_of_le ?_)
  have hbounds : 1 ≤ payloadMax ∧ payloadMax ≤ payloadMax :=
    ⟨Nat.le_of_succ_le two_le_payloadMax, Nat.le_refl _⟩
  exact cutPayload_length (fun _ => hbounds) _ _ (Nat.le_add_left _ _) p hp

/-- R75: a text that fits one header is one command. -/
theorem textCommands_short {units : List Half} (h : units.length ≤ payloadMax) :
    textCommands units = [.appendText units] := by
  rw [textCommands, textPieces, cutPayload_short _ _ h, List.map_singleton]

theorem asciiCommands_short {chars : List Half} (h : chars.length ≤ payloadMax) :
    asciiCommands chars = [.appendAscii chars] := by
  rw [asciiCommands, asciiPieces, cutPayload_short _ _ h, List.map_singleton]

/-- Settles O49: the facts of `cutPayload` and `textPieces` at the bound of the header. -/
theorem longTextIsCutIntoCommands : Obligations.LongTextIsCutIntoCommands := by
  refine ⟨fun units => ?_, fun chars => ?_⟩
  · exact ⟨cutPayload_flatten _ _ _ units, rfl, textCommands_wf units,
      textCommands_short, fun _ _ _ _ h => textPieces_between two_le_payloadMax units h,
      textPieces_wellPaired (Nat.le_of_succ_le two_le_payloadMax) units⟩
  · exact ⟨cutPayload_flatten _ _ _ chars, rfl, asciiCommands_wf chars, asciiCommands_short⟩

/-! ## HASH of a text that encodes -/

/-- R155: where no append is in error, the commands are issued to the last one, as in a plain run. -/
theorem issueUntilError_eq_execAll {is : List Instr} {j : Instr} {m : List Byte} {s : State}
    (hs : s.phase = .ready) (hm : messageOf is = some m) :
    issueUntilError (is ++ [j]) s = execAll (is ++ [j]) s := by
  obtain ⟨t, ht, hrun, hissue⟩ := issueUntilError_appends is [j] hs hm
  rw [hissue, execAll_append _ _ _ _ hrun, issueUntilError, if_neg (by rw [ht]; decide), execAll]
  cases exec j t <;> rfl

/-- The commands of a text that encodes push the text's bytes. -/
theorem messageOf_textCommands {units : List Half} {bs : List Byte}
    (h : encodeText units = .ok bs) : messageOf (textCommands units) = some bs := by
  have hpaired : wellPaired units = true := (encodeText_ok_iff units).1 ⟨bs, h⟩
  have hpieces : ∀ p ∈ textPieces payloadMax units, ∃ b, encodeText p = .ok b := fun p hp =>
    (encodeText_ok_iff p).2 ((textPieces_wellPaired (by decide) units).1 hpaired p hp)
  obtain ⟨bs', hmessage, hbs'⟩ := messageOf_appendText _ hpieces
  rw [textPieces, cutPayload_flatten, h, Except.ok.injEq] at hbs'
  rw [textCommands, hmessage, hbs']

/-- R155: HASH of a text that encodes is its commands, all of them. -/
theorem hashText_eq_execAll {units : List Half} {bs : List Byte} (h : encodeText units = .ok bs)
    (raw : Bool) (s : State) :
    hashText units raw s = execAll (.reset :: textCommands units ++ [.finalize raw]) s := by
  rw [hashText, exec_reset, List.cons_append, execAll_cons_of_next (exec_reset s)]
  exact issueUntilError_eq_execAll rfl (messageOf_textCommands h)

/-! ## HASH of a text in error -/

/-- The pieces of a text in error: those before the first one in error, that one, and the rest. -/
theorem exists_first_error {units : List Half} {c : EncodingCause}
    (h : encodeText units = .error c) :
    ∃ before bad later, textPieces payloadMax units = before ++ bad :: later ∧
      (∀ p ∈ before, wellPaired p = true) ∧ wellPaired bad = false := by
  have hlone : ¬ ∀ p ∈ textPieces payloadMax units, wellPaired p = true := by
    rw [← textPieces_wellPaired (by decide), ← encodeText_ok_iff, h]
    exact nofun
  obtain ⟨bad, hfind⟩ : ∃ bad, (textPieces payloadMax units).find? (!wellPaired ·) = some bad := by
    simpa [← Option.isSome_iff_exists] using hlone
  obtain ⟨hbad, before, later, hsplit, hbefore⟩ := List.find?_eq_some_iff_append.1 hfind
  exact ⟨before, bad, later, hsplit, by simpa using hbefore, by simpa using hbad⟩

/-- R155, R166: HASH of a text whose first payload in error is `bad`: the payloads before it are answered `OK`, `bad` is
answered `ERROR`, and nothing after it is issued. -/
theorem hashText_of_firstError {units : List Half} {before later : List (List Half)}
    {bad : List Half} (hsplit : textPieces payloadMax units = before ++ bad :: later)
    (hbefore : ∀ p ∈ before, ∃ bs, encodeText p = .ok bs) (hbad : wellPaired bad = false)
    (raw : Bool) (s : State) :
    ∃ t, hashText units raw s = .next t ∧ t.phase = .faulted ∧
      t.out = s.out ++ List.replicate (before.length + 1) .ok ++ [.error 1] := by
  obtain ⟨m, hmessage, -⟩ := messageOf_appendText before hbefore
  obtain ⟨t, hrun, hholds, hout⟩ := execAll_reset_appends hmessage s
  rw [execAll_cons_of_next (exec_reset s)] at hrun
  obtain ⟨t', ht', hrun', hissue⟩ := issueUntilError_appends (before.map .appendText)
    (.appendText bad :: (later.map .appendText ++ [.finalize raw]))
    (s := respond .ok (freshContext s)) rfl hmessage
  obtain rfl : t' = t := Host.Outcome.next.inj (hrun'.symm.trans hrun)
  obtain ⟨u, hu, hfaulted, hout'⟩ := exec_appendText_loneSurrogate ht' hbad
  refine ⟨u, ?_, hfaulted, by rw [hout', hout, List.length_map]⟩
  rw [hashText, exec_reset, textCommands, hsplit, List.map_append, List.map_cons,
    List.append_assoc, List.cons_append]
  refine hissue.trans ?_
  rw [issueUntilError_next _ (by rw [ht']; decide) hu, issueUntilError_faulted _ hfaulted]

/-- Settles O50: a text that encodes by the digest law, since all its commands are issued (`hashText_eq_execAll`); one
that does not by `hashText_of_firstError`. -/
theorem hashPseudoCommand : Obligations.HashPseudoCommand := by
  refine fun units raw s => ⟨fun bs hbs => ?_, fun c hc => ?_⟩
  · rw [hashText_eq_execAll hbs]
    exact digestLaw s _ bs raw (messageOf_textCommands hbs)
  · obtain ⟨before, bad, later, hsplit, hbefore, hbad⟩ := exists_first_error hc
    have hbefore' : ∀ p ∈ before, ∃ bs, encodeText p = .ok bs := fun p hp =>
      (encodeText_ok_iff p).2 (hbefore p hp)
    obtain ⟨t, ht, hphase, hout⟩ := hashText_of_firstError hsplit hbefore' hbad raw s
    cases hcause : encodeText bad with
    | ok bs => cases hbad.symm.trans ((encodeText_ok_iff bad).1 ⟨bs, hcause⟩)
    | error c' => exact ⟨t, before, bad, later, c', ht, hsplit, hbefore', hcause, hphase, hout⟩

/-! ## HASH_ASCII -/

theorem messageOf_asciiCommands (chars : List Half) :
    messageOf (asciiCommands chars) = some (chars.map asciiByte) := by
  rw [asciiCommands, messageOf_appendAscii, asciiPieces, cutPayload_flatten]

/-- Lists of commands that do the same one by one do the same in a run. -/
theorem execAll_map_congr {α : Type} {f g : α → Instr} {l : List α}
    (h : ∀ a ∈ l, ∀ s, exec (f a) s = exec (g a) s) (js : List Instr) (s : State) :
    execAll (l.map f ++ js) s = execAll (l.map g ++ js) s := by
  induction l generalizing s with
  | nil => rfl
  | cons a l ih =>
    obtain ⟨ha, hl⟩ := List.forall_mem_cons.1 h
    simp only [List.map_cons, List.cons_append, execAll, ha]
    cases exec (g a) s with
    | next t => exact ih hl t
    | _ => rfl

/-- R156: on codes below `0x80` HASH and HASH_ASCII cut the text alike, and command by command push the same bytes. -/
theorem hashText_eq_hashAscii {chars : List Half} (h : ∀ c ∈ chars, c.toNat < 0x80) (raw : Bool)
    (s : State) : hashText chars raw s = hashAscii chars raw s := by
  have hpiece : ∀ p ∈ asciiPieces payloadMax chars, ∀ s,
      exec (.appendText p) s = exec (.appendAscii p) s := by
    intro p hp
    have hflatten : (asciiPieces payloadMax chars).flatten = chars := cutPayload_flatten _ _ _ chars
    have hascii : ∀ u ∈ p, u.toNat < 0x80 := fun u hu =>
      h u (hflatten ▸ List.mem_flatten_of_mem hp hu)
    exact exec_eq_of_pushedBytes (pushedBytes_appendText (encodeText_ascii p hascii)) rfl
  rw [hashText_eq_execAll (encodeText_ascii chars h), hashAscii, List.cons_append, List.cons_append,
    execAll_cons_of_next (exec_reset s), execAll_cons_of_next (exec_reset s), textCommands,
    asciiCommands, textPieces_eq_asciiPieces _ _ h]
  exact execAll_map_congr hpiece [.finalize raw] _

/-- Settles O51: the digest law for the commands of HASH_ASCII, which push the low bytes and cannot be in error; for
codes below `0x80`, `hashText_eq_hashAscii`. -/
theorem hashAsciiPseudoCommand : Obligations.HashAsciiPseudoCommand := by
  intro chars raw s
  obtain ⟨t, ht, -, hout⟩ := digestLaw s _ _ raw (messageOf_asciiCommands chars)
  refine ⟨t, ht, ?_, fun h => hashText_eq_hashAscii h raw s⟩
  simp only [← asciiByte_eq]
  exact hout

end Sys2Proof.Proofs
end
